-- ==== Sys2Proof/Word.lean ====
section
/-! DEFINITION. The word types of the block: bytes and byte sequences (00_scope.md R9, R10). -/

namespace Sys2Proof

/-- A byte: a natural in `[0, 256)` (R10). -/
abbrev Byte := BitVec 8

/-- A byte sequence: a finite list of bytes of any length (R10, D20). -/
abbrev Bytes := List Byte

/-- `bit(false) = 0`, `bit(true) = 1` (R9). -/
def bit (f : Bool) : Nat := if f then 1 else 0

@[simp] theorem bit_false : bit false = 0 := rfl
@[simp] theorem bit_true : bit true = 1 := rfl

end Sys2Proof
end

