-- ==== Sys2Proof/Config.lean ====
section
/-! DEFINITION. What an integration of the block fixes: the open parameters of 00_scope.md R8, left
uninterpreted, and the fixed constants of R7. -/

namespace Sys2Proof

/-- A version pair `(major, minor)` of naturals (R8, R74). -/
structure Version where
  major : Nat
  minor : Nat
deriving DecidableEq, Repr, Inhabited

/-- A flags triple `(a, b, f)`: two priorities and the boolean ordering preference (R8, R12, R74). -/
structure FlagTriple where
  a : Nat
  b : Nat
  f : Bool
deriving DecidableEq, Repr, Inhabited

namespace Config

/-- OPEN parameter PROT_VERSION (R8, D17): no value in the spec, so none here (log 1). -/
opaque protVersion : Version

/-- OPEN parameter DEFAULT_FLAGS (R8, D18): no value in the spec, so none here (log 1). -/
opaque defaultFlags : FlagTriple

/-- N_CLIENTS less one: OPEN (R8, D3), so no value here. Counting the others keeps
"natural, at least 1" (log 2). -/
opaque otherClients : Nat

/-- N_CLIENTS, "natural, at least 1" (R8). -/
def nClients : Nat := otherClients + 1

/-- Bytes in a header (R7). -/
abbrev headerLen : Nat := 40
/-- Bytes covered by the header CRC-16, `[0,38)` (R7). -/
abbrev headerCrcSpan : Nat := 38
/-- Bytes in the CRC-32 footer (R7). -/
abbrev footerLen : Nat := 4
/-- Smallest packet `UNPACK` accepts (R7). -/
abbrev minPacketLen : Nat := 44
/-- A body shorter than this is sent as one unfragmented packet (R7). -/
abbrev singleLimit : Nat := 1024
/-- Largest chunk of a fragment (R7); a separate constant from `singleLimit` (N19). -/
abbrev chunkMax : Nat := 1024
/-- Bytes of the big-endian fragment index (R7). -/
abbrev fragIndexLen : Nat := 4

end Config

end Sys2Proof
end

