-- ==== Sys2Proof/Syntax.lean ====
section
/-! DEFINITION. The command interface as data: field records, the twelve commands of
spec/opcode_table.json with their typed operands, and a command as it is issued (a byte and operand
values; 30_encoding.md R60, R61, R63, R74). -/

namespace Sys2Proof

/-- The thirteen header fields, in the order of their field indices (R73). -/
inductive HeaderField
  | protVer | flags | lenBody | time | msgMjType | msgMiType | extHeader
  | sUniqid | rUniqid | sndSession | respSession | sndSeq | respSeq
deriving DecidableEq, Repr

/-- An input record (R11, R74): each of the thirteen fields present with a value, or absent. -/
structure PartialRecord where
  protVer     : Option Version    := none
  flags       : Option FlagTriple := none
  lenBody     : Option Nat := none
  time        : Option Nat := none
  msgMjType   : Option Nat := none
  msgMiType   : Option Nat := none
  extHeader   : Option Nat := none
  sUniqid     : Option Nat := none
  rUniqid     : Option Nat := none
  sndSession  : Option Nat := none
  respSession : Option Nat := none
  sndSeq      : Option Nat := none
  respSeq     : Option Nat := none
deriving DecidableEq, Repr, Inhabited

/-- An input record that has all thirteen fields: what `check(F)` lets through to the encoder (R127). -/
structure FullRecord where
  protVer     : Version
  flags       : FlagTriple
  lenBody     : Nat
  time        : Nat
  msgMjType   : Nat
  msgMiType   : Nat
  extHeader   : Nat
  sUniqid     : Nat
  rUniqid     : Nat
  sndSession  : Nat
  respSession : Nat
  sndSeq      : Nat
  respSeq     : Nat
deriving DecidableEq, Repr, Inhabited

/-- A decoded version: `(major_raw, minor, text)` (R74, R121). -/
structure DecodedVersion where
  majorRaw : Nat
  minor    : Nat
  text     : Bytes
deriving DecidableEq, Repr, Inhabited

/-- A decoded record (R74): all thirteen fields, the version as `(major_raw, minor, text)`, the flags
as a triple, every other field a natural; the CRC-16 is not in it. -/
structure DecodedRecord where
  protVer     : DecodedVersion
  flags       : FlagTriple
  lenBody     : Nat
  time        : Nat
  msgMjType   : Nat
  msgMiType   : Nat
  extHeader   : Nat
  sUniqid     : Nat
  rUniqid     : Nat
  sndSession  : Nat
  respSession : Nat
  sndSeq      : Nat
  respSeq     : Nat
deriving DecidableEq, Repr, Inhabited

/-- The twelve commands of the opcode table with their operands (R61, R63). The issuing client is an
implicit operand and is not written here. PACK_START carries the environment's draw `now` (R171). -/
inductive Instr
  /-- `CRC16 data` (R100). -/
  | crc16 (data : Bytes)
  /-- `CRC32 data` (R101). -/
  | crc32 (data : Bytes)
  /-- `VER_ENC major, minor` (R120). -/
  | verEnc (major minor : Nat)
  /-- `VER_DEC v` (R121). -/
  | verDec (v : Byte)
  /-- `FLG_ENC a, b, f` (R123). -/
  | flgEnc (a b : Nat) (f : Bool)
  /-- `FLG_DEC x` (R124). -/
  | flgDec (x : Byte)
  /-- `HDR_ENC F` (R126). -/
  | hdrEnc (fields : PartialRecord)
  /-- `HDR_DEC d` (R130). -/
  | hdrDec (data : Bytes)
  /-- `SEQ_NEXT` (R160). -/
  | seqNext
  /-- `PACK_START ov, body`, with the draw `now` (R170, R171). -/
  | packStart (ov : PartialRecord) (body : Bytes) (now : Nat)
  /-- `PACK_NEXT` (R175). -/
  | packNext
  /-- `UNPACK p` (R181). -/
  | unpack (packet : Bytes)
deriving DecidableEq, Repr

/-- The operand values that travel with a command byte: one alternative for each operand list of the
R63 table. -/
inductive Operands
  /-- No operands: SEQ_NEXT, PACK_NEXT. -/
  | none
  /-- One byte sequence: CRC16, CRC32, HDR_DEC, UNPACK. -/
  | data (d : Bytes)
  /-- `major`, `minor`: VER_ENC. -/
  | version (major minor : Nat)
  /-- One byte: VER_DEC, FLG_DEC. -/
  | byte (v : Byte)
  /-- `a`, `b`, `f`: FLG_ENC. -/
  | flags (a b : Nat) (f : Bool)
  /-- One partial record: HDR_ENC. -/
  | fields (F : PartialRecord)
  /-- Overrides, body, and the draw `now`: PACK_START. -/
  | message (ov : PartialRecord) (body : Bytes) (now : Nat)
deriving DecidableEq, Repr

/-- A command as it is issued: one command byte together with its operand values (R60). -/
structure Command where
  byte     : Byte
  operands : Operands
deriving DecidableEq, Repr

/-- A command together with the client that issues it (R6, R63). -/
structure Request where
  client  : Nat
  command : Command
deriving DecidableEq, Repr

end Sys2Proof
end

