-- ==== Sys2Proof/WellFormed.lean ====
section
/-! DEFINITION. Which commands and requests are well formed. A term of `Instr` needs no check of its
own: its operands are typed, and every natural, byte sequence and record is a legal operand value
(00_scope.md R9, 30_encoding.md R74: range checks happen at encode, not at input). What can be ill
formed is a command as issued: its byte (R60, R62), its operand list (R63), and its client (R6). -/

namespace Sys2Proof

/-- The `rsv` field of the command byte is 0 (R60). -/
def Command.rsvZero (c : Command) : Bool := c.byte.extractLsb' 4 4 == 0#4

/-- The `op` field of the command byte is one of the twelve opcodes (R61, R62). -/
def Command.opLegal (c : Command) : Bool :=
  1 ≤ (c.byte.extractLsb' 0 4).toNat && (c.byte.extractLsb' 0 4).toNat ≤ 12

/-- The operand list is the one the R63 table gives the opcode: which opcodes each operand list may
travel with. -/
def Command.operandsFit (c : Command) : Bool :=
  let op := (c.byte.extractLsb' 0 4).toNat
  match c.operands with
  | .data _        => op == 0x1 || op == 0x2 || op == 0x8 || op == 0xC
  | .version _ _   => op == 0x3
  | .byte _        => op == 0x4 || op == 0x6
  | .flags _ _ _   => op == 0x5
  | .fields _      => op == 0x7
  | .none          => op == 0x9 || op == 0xB
  | .message _ _ _ => op == 0xA

/-- A legal command: no reserved bit, no reserved opcode, and the opcode's own operand list. -/
def Command.wf (c : Command) : Bool := c.rsvZero && c.opLegal && c.operandsFit

/-- A command the interface can carry: a legal one, or one whose byte is reserved (R62 gives it a
response, whatever travels with it). -/
def Command.issuable (c : Command) : Bool := !c.rsvZero || !c.opLegal || c.operandsFit

/-- A request comes from one of the `n` clients and carries an issuable command (R6, R22). -/
def Request.wf (n : Nat) (r : Request) : Bool := decide (r.client < n) && r.command.issuable

end Sys2Proof
end

