-- ==== Sys2Proof/Decode.lean ====
section
/-! DEFINITION. From a command byte and its operand values to an instruction, and back
(30_encoding.md R60 to R63; spec/opcode_table.json). -/

namespace Sys2Proof

/-- Why a command has no instruction. `illegalCommand` is the spec's (R62) and the block answers it
with the status of that name. `operandMismatch` is the model's: operand values of another command's
type, which the spec's interface cannot carry (log 9). -/
inductive DecodeError
  | illegalCommand
  | operandMismatch
deriving DecidableEq, Repr

/-- The names of the opcode table (R61). -/
inductive Opcode
  | crc16 | crc32 | verEnc | verDec | flgEnc | flgDec
  | hdrEnc | hdrDec | seqNext | packStart | packNext | unpack
deriving DecidableEq, Repr

/-- The `op` field, bits 3..0 of the command byte (R60). -/
def opField (b : Byte) : BitVec 4 := b.extractLsb' 0 4

/-- The `rsv` field, bits 7..4 of the command byte (R60). -/
def rsvField (b : Byte) : BitVec 4 := b.extractLsb' 4 4

/-- The opcode table (R61), read on the `op` field; 0x0 and 0xD to 0xF are reserved (R62). -/
def opcodeOfField (op : BitVec 4) : Option Opcode :=
  match op.toNat with
  | 0x1 => some .crc16
  | 0x2 => some .crc32
  | 0x3 => some .verEnc
  | 0x4 => some .verDec
  | 0x5 => some .flgEnc
  | 0x6 => some .flgDec
  | 0x7 => some .hdrEnc
  | 0x8 => some .hdrDec
  | 0x9 => some .seqNext
  | 0xA => some .packStart
  | 0xB => some .packNext
  | 0xC => some .unpack
  | _   => none

/-- "The decoder reads one byte and decodes it with no other context" (R60). A set reserved bit makes
the byte illegal (R62). -/
def decodeByte (b : Byte) : Option Opcode :=
  if rsvField b = 0#4 then opcodeOfField (opField b) else none

/-- The opcode with its operand values (R63). -/
def bindOperands (o : Opcode) (v : Operands) : Except DecodeError Instr :=
  match o, v with
  | .crc16, .data d => .ok (.crc16 d)
  | .crc32, .data d => .ok (.crc32 d)
  | .verEnc, .version major minor => .ok (.verEnc major minor)
  | .verDec, .byte v => .ok (.verDec v)
  | .flgEnc, .flags a b f => .ok (.flgEnc a b f)
  | .flgDec, .byte x => .ok (.flgDec x)
  | .hdrEnc, .fields F => .ok (.hdrEnc F)
  | .hdrDec, .data d => .ok (.hdrDec d)
  | .seqNext, .none => .ok .seqNext
  | .packStart, .message ov body now => .ok (.packStart ov body now)
  | .packNext, .none => .ok .packNext
  | .unpack, .data p => .ok (.unpack p)
  | _, _ => .error .operandMismatch

/-- A command's instruction. The byte is decoded before anything else is looked at (R214 point 1). -/
def decode (c : Command) : Except DecodeError Instr :=
  match decodeByte c.byte with
  | some o => bindOperands o c.operands
  | none   => .error .illegalCommand

/-- The command byte of each row of the opcode table (R61). -/
def Opcode.byte : Opcode → Byte
  | .crc16     => 0x01#8
  | .crc32     => 0x02#8
  | .verEnc    => 0x03#8
  | .verDec    => 0x04#8
  | .flgEnc    => 0x05#8
  | .flgDec    => 0x06#8
  | .hdrEnc    => 0x07#8
  | .hdrDec    => 0x08#8
  | .seqNext   => 0x09#8
  | .packStart => 0x0A#8
  | .packNext  => 0x0B#8
  | .unpack    => 0x0C#8

/-- The opcode of an instruction (R61). -/
def Instr.opcode : Instr → Opcode
  | .crc16 _         => .crc16
  | .crc32 _         => .crc32
  | .verEnc _ _      => .verEnc
  | .verDec _        => .verDec
  | .flgEnc _ _ _    => .flgEnc
  | .flgDec _        => .flgDec
  | .hdrEnc _        => .hdrEnc
  | .hdrDec _        => .hdrDec
  | .seqNext         => .seqNext
  | .packStart _ _ _ => .packStart
  | .packNext        => .packNext
  | .unpack _        => .unpack

/-- The operand values of an instruction (R63). -/
def Instr.operands : Instr → Operands
  | .crc16 d               => .data d
  | .crc32 d               => .data d
  | .verEnc major minor    => .version major minor
  | .verDec v              => .byte v
  | .flgEnc a b f          => .flags a b f
  | .flgDec x              => .byte x
  | .hdrEnc F              => .fields F
  | .hdrDec d              => .data d
  | .seqNext               => .none
  | .packStart ov body now => .message ov body now
  | .packNext              => .none
  | .unpack p              => .data p

/-- The command that issues an instruction: its byte (R61) and its operand values (R63). -/
def encode (i : Instr) : Command := ⟨i.opcode.byte, i.operands⟩

/-- The operand values of all zeros that travel with a byte where the opcode table gives the operands
no bits: empty sequences, zeros, `false`, the record with no field (log 11). -/
def zeroOperands (b : Byte) : Operands :=
  match decodeByte b with
  | some .crc16     => .data []
  | some .crc32     => .data []
  | some .verEnc    => .version 0 0
  | some .verDec    => .byte 0#8
  | some .flgEnc    => .flags 0 0 false
  | some .flgDec    => .byte 0#8
  | some .hdrEnc    => .fields {}
  | some .hdrDec    => .data []
  | some .seqNext   => .none
  | some .packStart => .message {} [] 0
  | some .packNext  => .none
  | some .unpack    => .data []
  | none            => .none

/-- The command whose byte is the low eight bits of `w`, with operand values of zeros. -/
def tableCommand (w : Nat) : Command :=
  ⟨BitVec.ofNat 8 w, zeroOperands (BitVec.ofNat 8 w)⟩

/-- The instruction the decoder reads from a table word. Every command is exactly one byte long (R60),
so a word of any other length is no command. -/
def decodeTableWord (nbits w : Nat) : Option Instr :=
  if nbits = 8 ∧ w < 256 then
    match decode (tableCommand w) with
    | .ok i    => some i
    | .error _ => none
  else none

end Sys2Proof
end

