-- ==== Sys2Proof/Machine/State.lean ====
section
/-! DEFINITION. The state of the block (10_state.md R20 to R29), the interface values around it
(statuses R80, results R63, responses R5, R212, events R6, R241), and the state after reset (R240). -/

namespace Sys2Proof.Machine

/-- Why the machine stops. The spec has no trap (R212): every failure of a command is a status, and
the machine goes on. The one fault is the model's own. -/
inductive Fault
  /-- Raised by `step` for a request of a client `c` with `c ≥ N_CLIENTS`, and by PACK_START and
  PACK_NEXT for an issuer that has no slot. The spec has no such client (R6, R22). Safe: nothing is
  claimed of a machine that has stopped (log 10). -/
  | noSuchClient
deriving DecidableEq, Repr

/-- Why an instruction has no meaning here. -/
inductive Refusal
  /-- Raised by an arm of `exec` whose instruction has no meaning yet (no arm does). Safe. -/
  | notModelled (mnemonic : String)
  /-- Raised by `step` for a legal command byte that comes with operand values of another command's
  type. The spec's operands are typed (R63), so it has no such command. Safe (log 9). -/
  | operandMismatch
deriving DecidableEq, Repr

/-- The status of a command (R80). `END` is not an error; `missingField` to `illegalCommand` are the
failures. A field index is that of R73, 13 being the fragment index. -/
inductive Status
  | ok
  | missingField (index : Nat)
  | invalidHeaderLength
  | headerIntegrityError
  | invalidPacketLength
  | bodyIntegrityError
  | fieldRange (index : Nat)
  | noStream
  | illegalCommand
  | endOfStream
deriving DecidableEq, Repr

/-- The result values of the R63 table; `none` where a command returns no result. -/
inductive Result
  | none
  /-- A 16-bit natural: CRC16. -/
  | nat16 (v : BitVec 16)
  /-- A 32-bit natural: CRC32, SEQ_NEXT. -/
  | nat32 (v : BitVec 32)
  /-- A byte: VER_ENC, FLG_ENC. -/
  | byte (v : Byte)
  /-- `(major_raw, minor, text)`: VER_DEC. -/
  | version (v : DecodedVersion)
  /-- `(a, b, f)`: FLG_DEC. -/
  | flags (t : FlagTriple)
  /-- A 40-byte sequence: HDR_ENC. -/
  | header (h : Bytes)
  /-- A decoded record: HDR_DEC. -/
  | fields (r : DecodedRecord)
  /-- A packet: PACK_NEXT. -/
  | packet (p : Bytes)
  /-- A decoded record and a body: UNPACK. -/
  | unpacked (r : DecodedRecord) (body : Bytes)
deriving DecidableEq, Repr

/-- The one response a command gets (R5): a status and result values, back to its issuer (R212). -/
structure Response where
  client : Nat
  status : Status
  result : Result
deriving DecidableEq, Repr

/-- The mode of a stream (R23). -/
inductive Mode
  | single
  | frag
deriving DecidableEq, Repr

/-- The context of an ACTIVE slot (R23). -/
structure Context where
  /-- The defaults with the caller's overrides applied; `time` holds the timestamp of PACK_START. -/
  hdr    : PartialRecord
  /-- A copy of the caller's whole logical message. -/
  body   : Bytes
  mode   : Mode
  /-- Index of the next fragment; in `single` mode 0 before the packet is emitted and 1 after. -/
  index  : Nat
  /-- Byte offset in `body` of the next chunk. -/
  offset : Nat
deriving DecidableEq, Repr

/-- A pack-stream slot (R22). -/
inductive Slot
  | idle
  | active (ctx : Context)
  | done
deriving DecidableEq, Repr

/-- The open parameters the commands read (R8). They are fixed before the first command (R243) and
nothing changes them (R27). -/
structure Params where
  protVersion  : Version
  defaultFlags : FlagTriple
deriving DecidableEq, Repr

/-- What the environment does at one point of the total order (R48): a client's command is performed,
or the block is reset (R241). -/
inductive Event
  | command (r : Request)
  | reset
deriving DecidableEq, Repr

/-- The machine. `seq` and `slots` are the state of the block, exactly (R29). The other fields are the
interface around it, the model's own: see log 1 (`params`), 4 (`inbox`), 5 (`outbox`), 6 (`issuer`).
N_CLIENTS is the length of `slots` (log 2). -/
structure State where
  /-- `SEQ`, the 24-bit sequence counter (R20). -/
  seq    : BitVec 24
  /-- `slot[c]` for each client `c` (R22). -/
  slots  : List Slot
  /-- The open parameters (R8). -/
  params : Params
  /-- The client whose command is being performed (R63). -/
  issuer : Nat
  /-- The events still to come, in the total order of R48. -/
  inbox  : List Event
  /-- The responses given so far, oldest first. -/
  outbox : List Response
deriving DecidableEq, Repr

/-- The state after reset (R240): `SEQ` is 0 and every slot is IDLE. The parameters are the
uninterpreted ones; no event is waiting and no response has been given. -/
def State.reset : State where
  seq    := 0
  slots  := List.replicate Config.nClients .idle
  params := ⟨Config.protVersion, Config.defaultFlags⟩
  issuer := 0
  inbox  := []
  outbox := []

end Sys2Proof.Machine
end

