-- ==== Sys2Proof/Machine/Operands.lean ====
section
/-! DEFINITION. The operand forms: byte sequences and their slices (00_scope.md R10), big-endian
integers (20_memory.md R41, R42), decimal text (41_header_codec.md R121), the header fields' indices,
offsets and widths (30_encoding.md R64, R73), and field records (00_scope.md R11). -/

namespace Sys2Proof

/-! ### Byte sequences -/

/-- `d[i:j]`: bytes `i` up to but not including `j` (R10). -/
def slice (d : Bytes) (i j : Nat) : Bytes := (d.drop i).take (j - i)

/-- `d[-k:]`: the last `k` bytes (R10). -/
def lastBytes (d : Bytes) (k : Nat) : Bytes := d.drop (d.length - k)

/-- `d[i:-k]`: from byte `i` up to the last `k` bytes (R10). -/
def sliceToLast (d : Bytes) (i k : Nat) : Bytes := slice d i (d.length - k)

/-- `d[i]` (R10). Every use is behind a length check, so the default is never read. -/
def byteAt (d : Bytes) (i : Nat) : Byte := d.getD i 0#8

/-- `BE_n(v)`: the `n`-byte big-endian encoding, `e[i] = (v >> (8*(n-1-i))) & 0xFF` (R41). -/
def beBytes : Nat → Nat → Bytes
  | 0, _ => []
  | n + 1, v => BitVec.ofNat 8 (v >>> (8 * n)) :: beBytes n v

/-- `fromBE(d)`: the sum of `d[i] * 2^(8*(n-1-i))` (R42). -/
def fromBE : Bytes → Nat
  | [] => 0
  | b :: bs => b.toNat * 2 ^ (8 * bs.length) + fromBE bs

/-- The ASCII byte of a decimal digit. -/
def digitByte (n : Nat) : Byte := BitVec.ofNat 8 (48 + n % 10)

/-- The decimal digits of `n`, most significant first; `fuel` above the number of digits is enough. -/
def decDigits : Nat → Nat → Bytes
  | 0, _ => []
  | fuel + 1, n => if n < 10 then [digitByte n] else decDigits fuel (n / 10) ++ [digitByte n]

/-- `dec(n)`: decimal ASCII, most significant digit first, no leading zeros, `b"0"` for 0 (R121). -/
def dec (n : Nat) : Bytes := decDigits (n + 1) n

/-- The ASCII byte of `.`. -/
def dotByte : Byte := 0x2E#8

/-! ### Header fields -/

/-- The field index (R73). -/
def HeaderField.index : HeaderField → Nat
  | .protVer => 0
  | .flags => 1
  | .lenBody => 2
  | .time => 3
  | .msgMjType => 4
  | .msgMiType => 5
  | .extHeader => 6
  | .sUniqid => 7
  | .rUniqid => 8
  | .sndSession => 9
  | .respSession => 10
  | .sndSeq => 11
  | .respSeq => 12

/-- The index reported for the fragment index, which is no header field (R73, R177). -/
def fragIndexField : Nat := 13

/-- All thirteen fields in the order of their indices (R73). -/
def HeaderField.all : List HeaderField :=
  [.protVer, .flags, .lenBody, .time, .msgMjType, .msgMiType, .extHeader,
   .sUniqid, .rUniqid, .sndSession, .respSession, .sndSeq, .respSeq]

/-- The offset column of the header layout (R64). -/
def HeaderField.offset : HeaderField → Nat
  | .protVer => 0
  | .flags => 1
  | .lenBody => 2
  | .time => 4
  | .msgMjType => 8
  | .msgMiType => 9
  | .sndSession => 10
  | .sUniqid => 12
  | .extHeader => 20
  | .respSession => 22
  | .rUniqid => 24
  | .sndSeq => 32
  | .respSeq => 35

/-- The bytes column of the header layout (R64). -/
def HeaderField.bytes : HeaderField → Nat
  | .protVer => 1
  | .flags => 1
  | .lenBody => 2
  | .time => 4
  | .msgMjType => 1
  | .msgMiType => 1
  | .sndSession => 2
  | .sUniqid => 8
  | .extHeader => 2
  | .respSession => 2
  | .rUniqid => 8
  | .sndSeq => 3
  | .respSeq => 3

/-- The bit width column of the header layout (R64): every field is whole bytes. -/
def HeaderField.width (x : HeaderField) : Nat := 8 * x.bytes

/-- The bytes of a header that hold a field (R64). -/
def headerBytes (h : Bytes) (x : HeaderField) : Bytes := slice h x.offset (x.offset + x.bytes)

/-! ### Field records -/

/-- `name ∈ F` (R11). -/
def PartialRecord.has (F : PartialRecord) : HeaderField → Bool
  | .protVer => F.protVer.isSome
  | .flags => F.flags.isSome
  | .lenBody => F.lenBody.isSome
  | .time => F.time.isSome
  | .msgMjType => F.msgMjType.isSome
  | .msgMiType => F.msgMiType.isSome
  | .extHeader => F.extHeader.isSome
  | .sUniqid => F.sUniqid.isSome
  | .rUniqid => F.rUniqid.isSome
  | .sndSession => F.sndSession.isSome
  | .respSession => F.respSession.isSome
  | .sndSeq => F.sndSeq.isSome
  | .respSeq => F.respSeq.isSome

/-- `A ⊕ B`: `A` with every entry of `B` put over it, so that `B`'s value wins (R11). -/
def PartialRecord.override (A B : PartialRecord) : PartialRecord where
  protVer     := B.protVer.or A.protVer
  flags       := B.flags.or A.flags
  lenBody     := B.lenBody.or A.lenBody
  time        := B.time.or A.time
  msgMjType   := B.msgMjType.or A.msgMjType
  msgMiType   := B.msgMiType.or A.msgMiType
  extHeader   := B.extHeader.or A.extHeader
  sUniqid     := B.sUniqid.or A.sUniqid
  rUniqid     := B.rUniqid.or A.rUniqid
  sndSession  := B.sndSession.or A.sndSession
  respSession := B.respSession.or A.respSession
  sndSeq      := B.sndSeq.or A.sndSeq
  respSeq     := B.respSeq.or A.respSeq

/-- `F[snd_seq := s]` (R11, R176). -/
def PartialRecord.setSndSeq (F : PartialRecord) (s : BitVec 24) : PartialRecord :=
  { F with sndSeq := some s.toNat }

end Sys2Proof
end

