-- ==== Sys2Proof/Machine/Flags.lean ====
section
/-! DEFINITION. The two bit-packed header bytes: the flags byte (30_encoding.md R66) and the version
byte (R67). The block has no condition codes or status flags (10_state.md R25): "flags" is the header
field of that name. -/

namespace Sys2Proof

/-- The version byte, `(major << 4) | (minor & 0xF)` (R67, R120). Used only where `major ≤ 15`, so that
nothing is cut off. -/
def versionByte (major minor : Nat) : Byte := BitVec.ofNat 8 ((major <<< 4) ||| (minor &&& 0xF))

/-- The largest version major that fits its nibble (R120). -/
def maxMajor : Nat := 15

/-- `v & 0xF0`, NOT shifted right (R67, R121). -/
def versionMajorRaw (v : Byte) : Nat := (v &&& 0xF0#8).toNat

/-- `v & 0x0F` (R67, R121). -/
def versionMinor (v : Byte) : Nat := (v &&& 0x0F#8).toNat

/-- VER_DEC's value: the raw major, the minor, and the text `"major_raw.minor"` in decimal (R121). -/
def decodeVersion (v : Byte) : DecodedVersion where
  majorRaw := versionMajorRaw v
  minor    := versionMinor v
  text     := dec (versionMajorRaw v) ++ [dotByte] ++ dec (versionMinor v)

/-- The flags byte, `((a << 5) | (b << 2) | (bit(f) << 1)) mod 256`: out-of-range values are cut by the
shift, never rejected (R66, R123; 90_conflicts.md C2). -/
def flagsByte (a b : Nat) (f : Bool) : Byte :=
  BitVec.ofNat 8 ((a <<< 5) ||| (b <<< 2) ||| (bit f <<< 1))

/-- FLG_DEC's value (R66, R124). Bit 0 is ignored (R72). -/
def decodeFlags (x : Byte) : FlagTriple where
  a := ((x &&& 0xE0#8) >>> 5).toNat
  b := ((x &&& 0x1C#8) >>> 2).toNat
  f := (x &&& 0x02#8) >>> 1 == 1#8

end Sys2Proof
end

