-- ==== Sys2Proof/Machine/Ops.lean ====
section
/-! DEFINITION. The shared operations on the state: slots, the counter's fetch-and-increment,
answering a command, failing a command (the block's only "exception", 60_exceptions.md R211, R212),
accepting a request, and the reset event. -/

namespace Sys2Proof.Machine

/-! ### Statuses -/

/-- The numeric code of a status (R80). -/
def Status.code : Status → Nat
  | .ok => 0
  | .missingField _ => 1
  | .invalidHeaderLength => 2
  | .headerIntegrityError => 3
  | .invalidPacketLength => 4
  | .bodyIntegrityError => 5
  | .fieldRange _ => 6
  | .noStream => 7
  | .illegalCommand => 8
  | .endOfStream => 9

/-- The info of a status: a field index for MissingField and FieldRange, else none (R80). -/
def Status.info : Status → Option Nat
  | .missingField i => some i
  | .fieldRange i => some i
  | .ok => none
  | .invalidHeaderLength => none
  | .headerIntegrityError => none
  | .invalidPacketLength => none
  | .bodyIntegrityError => none
  | .noStream => none
  | .illegalCommand => none
  | .endOfStream => none

/-- "Statuses 1 to 8 are failures"; `OK` and `END` are not (R80). -/
def Status.isFailure (st : Status) : Bool := 1 ≤ st.code && st.code ≤ 8

/-! ### The state of the block -/

/-- N_CLIENTS: there is one slot for each client (R22). -/
def State.nClients (s : State) : Nat := s.slots.length

/-- `slot[c]`; `none` where there is no client `c` (R22). -/
def State.slot? (s : State) (c : Nat) : Option Slot := s.slots[c]?

/-- `slot[c] <- v` (R10). -/
def State.setSlot (s : State) (c : Nat) (v : Slot) : State := { s with slots := s.slots.set c v }

/-- The write of the fetch-and-increment: `SEQ <- (SEQ + 1) mod 2^24` (R160, R161). The value taken is
`s.seq`, read in the same step. -/
def State.advanceSeq (s : State) : State := { s with seq := s.seq + 1 }

/-- Reset (R240, R241): `SEQ <- 0`, every slot `IDLE`. The parameters are not state (R240); the
responses already given stay given (log 8). -/
def State.resetBlock (s : State) : State :=
  { s with seq := 0, slots := List.replicate s.nClients .idle }

/-! ### Answering a command -/

/-- `return (st, r)`: the one response of the command, to its issuer (R10, R80, R212). -/
def State.respond (s : State) (st : Status) (r : Result) : State :=
  { s with outbox := s.outbox ++ [⟨s.issuer, st, r⟩] }

/-- `raise E(info)`: the command ends with a failure status and no result. What it wrote before the
raise stays; nothing is saved and nothing jumps (R10, R211, R212). -/
def State.raise (s : State) (st : Status) : State := s.respond st .none

/-- Ends a command that returns a value or fails, writing no state of the block (R211). -/
def State.answer (s : State) (r : Except Status Result) : State :=
  match r with
  | .ok v     => s.respond .ok v
  | .error st => s.raise st

/-- A reserved command byte: "performs no operation, changes no state, and returns status
`IllegalCommand`" (R62). -/
def performIllegal (s : State) : State := s.raise .illegalCommand

/-! ### Events -/

/-- The next event is taken off the inbox. -/
def State.popEvent (s : State) : State := { s with inbox := s.inbox.tail }

/-- A request is accepted: its event is taken off the inbox and its client becomes the implicit operand
`c` of the command (R63). -/
def State.accept (s : State) (c : Nat) : State := { s.popEvent with issuer := c }

/-- An event put where it is the very next one (for `State.withFetchWord`). -/
def State.pushEvent (s : State) (e : Event) : State := { s with inbox := e :: s.inbox }

end Sys2Proof.Machine
end

