-- ==== Sys2Proof/Machine/Checksum.lean ====
section
/-! DEFINITION. The checksum unit: CRC16 and CRC32 (40_checksum.md R100 to R103). -/

namespace Sys2Proof

/-- One bit of a reflected CRC: shift right, and XOR the reflected polynomial when the bit shifted out
is 1 (R100, R101). -/
def crcBit {w : Nat} (poly crc : BitVec w) : BitVec w :=
  if crc.getLsbD 0 then (crc >>> 1) ^^^ poly else crc >>> 1

/-- "repeat 8 times" of R100 and R101. -/
def crcEightBits {w : Nat} (poly crc : BitVec w) : BitVec w :=
  crcBit poly (crcBit poly (crcBit poly (crcBit poly
    (crcBit poly (crcBit poly (crcBit poly (crcBit poly crc)))))))

/-- One byte of data: XOR into the low 8 bits, then eight bits (R100, R101). -/
def crcByte {w : Nat} (poly crc : BitVec w) (b : Byte) : BitVec w :=
  crcEightBits poly (crc ^^^ b.setWidth w)

/-- The register after a byte sequence, byte 0 first (R44). -/
def crcRun {w : Nat} (poly crc : BitVec w) (d : Bytes) : BitVec w := d.foldl (crcByte poly) crc

/-- The reflected CRC-16 polynomial (R7, R100). -/
def crc16Poly : BitVec 16 := 0xA001#16

/-- The reflected CRC-32 polynomial (R7, R101; log 12). -/
def crc32Poly : BitVec 32 := 0xEDB88320#32

/-- CRC-16/ARC: initial value 0, no final XOR (R100; log 12). -/
def crc16 (d : Bytes) : BitVec 16 := crcRun crc16Poly 0x0000#16 d

/-- CRC-32 (IEEE 802.3): initial value and final XOR all ones (R101; log 12). -/
def crc32 (d : Bytes) : BitVec 32 := crcRun crc32Poly 0xFFFFFFFF#32 d ^^^ 0xFFFFFFFF#32

namespace Machine

/-- `CRC16 data` (R100). -/
def execCrc16 (data : Bytes) (s : State) : Host.Outcome State Fault Refusal :=
  .next (s.respond .ok (.nat16 (crc16 data)))

/-- `CRC32 data` (R101). -/
def execCrc32 (data : Bytes) (s : State) : Host.Outcome State Fault Refusal :=
  .next (s.respond .ok (.nat32 (crc32 data)))

end Machine

end Sys2Proof
end

