-- ==== Sys2Proof/Machine/Header.lean ====
section
/-! DEFINITION. The header codec: VER_ENC, VER_DEC, FLG_ENC, FLG_DEC, HDR_ENC, HDR_DEC
(41_header_codec.md R120 to R131). -/

namespace Sys2Proof

open Machine (Status)

/-! ### The checks of an encode (R127) -/

/-- A field's value, or `MissingField` with the field's index (R127). -/
def present {α : Type} (x : HeaderField) : Option α → Except Status α
  | some v => .ok v
  | none   => .error (.missingField x.index)

/-- "presence first, over all 13 fields", in the order of the indices (R127). -/
def PartialRecord.complete (F : PartialRecord) : Except Status FullRecord := do
  let protVer ← present .protVer F.protVer
  let flags ← present .flags F.flags
  let lenBody ← present .lenBody F.lenBody
  let time ← present .time F.time
  let msgMjType ← present .msgMjType F.msgMjType
  let msgMiType ← present .msgMiType F.msgMiType
  let extHeader ← present .extHeader F.extHeader
  let sUniqid ← present .sUniqid F.sUniqid
  let rUniqid ← present .rUniqid F.rUniqid
  let sndSession ← present .sndSession F.sndSession
  let respSession ← present .respSession F.respSession
  let sndSeq ← present .sndSeq F.sndSeq
  let respSeq ← present .respSeq F.respSeq
  return { protVer, flags, lenBody, time, msgMjType, msgMiType, extHeader,
           sUniqid, rUniqid, sndSession, respSession, sndSeq, respSeq }

/-- Whether a field's value does not fit: a version major above 15, never the flags, any other field at
or above `2^width` (R127). -/
def FullRecord.outOfRange (R : FullRecord) : HeaderField → Bool
  | .protVer => decide (R.protVer.major > maxMajor)
  | .flags => false
  | .lenBody => decide (R.lenBody ≥ 2 ^ HeaderField.lenBody.width)
  | .time => decide (R.time ≥ 2 ^ HeaderField.time.width)
  | .msgMjType => decide (R.msgMjType ≥ 2 ^ HeaderField.msgMjType.width)
  | .msgMiType => decide (R.msgMiType ≥ 2 ^ HeaderField.msgMiType.width)
  | .extHeader => decide (R.extHeader ≥ 2 ^ HeaderField.extHeader.width)
  | .sUniqid => decide (R.sUniqid ≥ 2 ^ HeaderField.sUniqid.width)
  | .rUniqid => decide (R.rUniqid ≥ 2 ^ HeaderField.rUniqid.width)
  | .sndSession => decide (R.sndSession ≥ 2 ^ HeaderField.sndSession.width)
  | .respSession => decide (R.respSession ≥ 2 ^ HeaderField.respSession.width)
  | .sndSeq => decide (R.sndSeq ≥ 2 ^ HeaderField.sndSeq.width)
  | .respSeq => decide (R.respSeq ≥ 2 ^ HeaderField.respSeq.width)

/-- `check(F)`: every missing field before any value out of range, the lowest index first (R127). -/
def checkRecord (F : PartialRecord) : Except Status FullRecord := do
  let R ← F.complete
  match HeaderField.all.find? R.outOfRange with
  | some x => .error (.fieldRange x.index)
  | none   => return R

/-! ### Encode (R126) -/

/-- The 38 bytes before the CRC-16, in the order of their offsets (R126). -/
def header38 (R : FullRecord) : Bytes :=
  [versionByte R.protVer.major R.protVer.minor]
  ++ [flagsByte R.flags.a R.flags.b R.flags.f]
  ++ beBytes 2 R.lenBody
  ++ beBytes 4 R.time
  ++ beBytes 1 R.msgMjType
  ++ beBytes 1 R.msgMiType
  ++ beBytes 2 R.sndSession
  ++ beBytes 8 R.sUniqid
  ++ beBytes 2 R.extHeader
  ++ beBytes 2 R.respSession
  ++ beBytes 8 R.rUniqid
  ++ beBytes 3 R.sndSeq
  ++ beBytes 3 R.respSeq

/-- The 40-byte header: the 38 bytes and their CRC-16, big-endian (R65, R126). -/
def encodeHeader (R : FullRecord) : Bytes :=
  header38 R ++ beBytes 2 (crc16 (header38 R)).toNat

/-- The value of HDR_ENC: "fail fast, no partial header ever returned" (R126, R127). -/
def hdrEncode (F : PartialRecord) : Except Status Bytes := do
  let R ← checkRecord F
  return encodeHeader R

/-! ### Decode (R130) -/

/-- The fields of forty header bytes (R130). -/
def decodedFields (d : Bytes) : DecodedRecord where
  protVer     := decodeVersion (byteAt d 0)
  flags       := decodeFlags (byteAt d 1)
  lenBody     := fromBE (slice d 2 4)
  time        := fromBE (slice d 4 8)
  msgMjType   := (byteAt d 8).toNat
  msgMiType   := (byteAt d 9).toNat
  sndSession  := fromBE (slice d 10 12)
  sUniqid     := fromBE (slice d 12 20)
  extHeader   := fromBE (slice d 20 22)
  respSession := fromBE (slice d 22 24)
  rUniqid     := fromBE (slice d 24 32)
  sndSeq      := fromBE (slice d 32 35)
  respSeq     := fromBE (slice d 35 38)

/-- The value of HDR_DEC: length first, then the CRC-16, then the fields (R130, R131). -/
def hdrDecode (d : Bytes) : Except Status DecodedRecord :=
  if d.length ≠ Config.headerLen then .error .invalidHeaderLength
  else if fromBE (slice d 38 40) ≠ (crc16 (slice d 0 38)).toNat then .error .headerIntegrityError
  else .ok (decodedFields d)

namespace Machine

/-- `VER_ENC major, minor` (R120). -/
def execVerEnc (major minor : Nat) (s : State) : Host.Outcome State Fault Refusal :=
  if major > maxMajor then .next (s.raise (.fieldRange HeaderField.protVer.index))
  else .next (s.respond .ok (.byte (versionByte major minor)))

/-- `VER_DEC v` (R121). -/
def execVerDec (v : Byte) (s : State) : Host.Outcome State Fault Refusal :=
  .next (s.respond .ok (.version (decodeVersion v)))

/-- `FLG_ENC a, b, f` (R123). -/
def execFlgEnc (a b : Nat) (f : Bool) (s : State) : Host.Outcome State Fault Refusal :=
  .next (s.respond .ok (.byte (flagsByte a b f)))

/-- `FLG_DEC x` (R124). -/
def execFlgDec (x : Byte) (s : State) : Host.Outcome State Fault Refusal :=
  .next (s.respond .ok (.flags (decodeFlags x)))

/-- `HDR_ENC F` (R126). -/
def execHdrEnc (F : PartialRecord) (s : State) : Host.Outcome State Fault Refusal :=
  .next (s.answer ((hdrEncode F).map .header))

/-- `HDR_DEC d` (R130). -/
def execHdrDec (d : Bytes) (s : State) : Host.Outcome State Fault Refusal :=
  .next (s.answer ((hdrDecode d).map .fields))

end Machine

end Sys2Proof
end

