-- ==== Sys2Proof/Machine/Sequence.lean ====
section
/-! DEFINITION. The sequence counter: SEQ_NEXT (42_sequence.md R160). -/

namespace Sys2Proof.Machine

/-- `SEQ_NEXT`: the value, zero-extended to 32 bits, and the increment, in one step (R160, R161). -/
def execSeqNext (s : State) : Host.Outcome State Fault Refusal :=
  .next (s.advanceSeq.respond .ok (.nat32 (s.seq.setWidth 32)))

end Sys2Proof.Machine
end

