-- ==== Sys2Proof/Machine/Packet.lean ====
section
/-! DEFINITION. The fragmenter and the packet envelope: PACK_START, PACK_NEXT, UNPACK
(43_packet.md R170 to R183), and the pseudo-command PACK_ALL (30_encoding.md R76). -/

namespace Sys2Proof.Machine

/-! ### Opening a stream -/

/-- `defaults(body, now)` (R172): no message types, no sequence number. -/
def defaults (p : Params) (body : Bytes) (now : Nat) : PartialRecord where
  protVer     := some p.protVersion
  flags       := some p.defaultFlags
  lenBody     := some body.length
  time        := some now
  msgMjType   := none
  msgMiType   := none
  extHeader   := some 0
  sUniqid     := some 0
  rUniqid     := some 0
  sndSession  := some 0
  respSession := some 0
  sndSeq      := none
  respSeq     := some 0

/-- The mode reads the real body length, not `H.len_body` (R174). -/
def modeOf (body : Bytes) : Mode := if body.length < Config.singleLimit then .single else .frag

/-- The context PACK_START opens (R170, R173). -/
def openContext (p : Params) (ov : PartialRecord) (body : Bytes) (now : Nat) : Context where
  hdr    := (defaults p body now).override ov
  body   := body
  mode   := modeOf body
  index  := 0
  offset := 0

/-- `PACK_START ov, body` (R170). A stream already open in the slot is abandoned; nothing is validated
and `SEQ` is not touched. -/
def execPackStart (ov : PartialRecord) (body : Bytes) (now : Nat) (s : State) :
    Host.Outcome State Fault Refusal :=
  match s.slot? s.issuer with
  | none   => .fault .noSuchClient
  | some _ => .next ((s.setSlot s.issuer (.active (openContext s.params ov body now))).respond .ok .none)

/-! ### Emitting packets -/

/-- No packet left (R175, R178). -/
def Context.exhausted (ctx : Context) : Bool :=
  match ctx.mode with
  | .single => ctx.index == 1
  | .frag   => decide (ctx.offset ≥ ctx.body.length)

/-- The header of the next packet, stamped with the counter value taken (R176). -/
def emitHeader (ctx : Context) (seq : BitVec 24) : Except Status Bytes :=
  hdrEncode (ctx.hdr.setSndSeq seq)

/-- The chunk of the next fragment (R177). -/
def Context.chunk (ctx : Context) : Bytes :=
  slice ctx.body ctx.offset (min (ctx.offset + Config.chunkMax) ctx.body.length)

/-- `frag_body(ctx)`: the 4-byte big-endian index and the chunk (R177). -/
def fragBody (ctx : Context) : Except Status Bytes :=
  if ctx.index ≥ 2 ^ (8 * Config.fragIndexLen) then .error (.fieldRange fragIndexField)
  else .ok (beBytes Config.fragIndexLen ctx.index ++ ctx.chunk)

/-- `Header ‖ Body ‖ Footer`, the footer being the CRC-32 of the body (R68). -/
def framePacket (header body : Bytes) : Bytes :=
  header ++ body ++ beBytes Config.footerLen (crc32 body).toNat

/-- The packet of a header, and the cursor after it (R175). -/
def Context.packet (ctx : Context) (header : Bytes) : Except Status (Bytes × Context) :=
  match ctx.mode with
  | .single => .ok (framePacket header ctx.body, { ctx with index := 1 })
  | .frag => do
    let b ← fragBody ctx
    return (framePacket header b,
      { ctx with index := ctx.index + 1, offset := ctx.offset + Config.chunkMax })

/-- One emission with the counter value `seq`: the header is encoded first, then the fragment index is
checked (R175, R176, R177; R214 point 5). -/
def emitPacket (ctx : Context) (seq : BitVec 24) : Except Status (Bytes × Context) := do
  let h ← emitHeader ctx seq
  ctx.packet h

/-- `PACK_NEXT` (R175 to R179). The counter value is taken before the header is encoded, so a failing
emission advances `SEQ` and closes the stream. -/
def execPackNext (s : State) : Host.Outcome State Fault Refusal :=
  match s.slot? s.issuer with
  | none       => .fault .noSuchClient
  | some .idle => .next (s.raise .noStream)
  | some .done => .next (s.respond .endOfStream .none)
  | some (.active ctx) =>
    if ctx.exhausted then .next ((s.setSlot s.issuer .done).respond .endOfStream .none)
    else
      match emitPacket ctx s.seq with
      | .error st => .next ((s.advanceSeq.setSlot s.issuer .done).raise st)
      | .ok (p, ctx') => .next ((s.advanceSeq.setSlot s.issuer (.active ctx')).respond .ok (.packet p))

/-! ### Unpacking -/

/-- The value of UNPACK: length, then body CRC, then header (R181, R182). Nothing else is checked
(R183). -/
def unpackPacket (p : Bytes) : Except Status (DecodedRecord × Bytes) :=
  if p.length < Config.minPacketLen then .error .invalidPacketLength
  else if (crc32 (sliceToLast p Config.headerLen Config.footerLen)).toNat
      ≠ fromBE (lastBytes p Config.footerLen) then .error .bodyIntegrityError
  else do
    let F ← hdrDecode (slice p 0 Config.headerLen)
    return (F, sliceToLast p Config.headerLen Config.footerLen)

/-- `UNPACK p` (R181). -/
def execUnpack (p : Bytes) (s : State) : Host.Outcome State Fault Refusal :=
  .next (s.answer ((unpackPacket p).map fun (F, body) => .unpacked F body))

/-! ### The pseudo-command PACK_ALL -/

/-- What PACK_ALL gives: the packets returned with `OK`, in order, the final status, and the state it
leaves (R76). -/
structure PackAllResult where
  packets : List Bytes
  final   : Status
  state   : State
deriving DecidableEq, Repr

/-- `PACK_NEXT` repeated until it returns a status other than `OK` (R76); at most `fuel` times. -/
def pullAll : Nat → List Bytes → State → Option PackAllResult
  | 0, _, _ => none
  | fuel + 1, got, s =>
    match execPackNext s with
    | .next t =>
      match t.outbox.getLast? with
      | some ⟨_, .ok, .packet p⟩ => pullAll fuel (got ++ [p]) t
      | some ⟨_, st, _⟩ => some ⟨got, st, t⟩
      | none => none
    | .fault _ => none
    | .refused _ => none

/-- Pulls enough for a body: one for each packet, and the one that returns `END` (R180, R259). -/
def pullBound (body : Bytes) : Nat :=
  if body.length < Config.singleLimit then 2 else (body.length + (Config.chunkMax - 1)) / Config.chunkMax + 1

/-- `PACK_ALL ov, body` where no other client's command comes between (R76; log 16). -/
def packAll (ov : PartialRecord) (body : Bytes) (now : Nat) (s : State) : Option PackAllResult :=
  match execPackStart ov body now s with
  | .next t => pullAll (pullBound body) [] t
  | .fault _ => none
  | .refused _ => none

end Sys2Proof.Machine
end

