-- ==== Sys2Proof/Machine/Dispatch.lean ====
section
/-! DEFINITION. One arm for each command of the opcode table (30_encoding.md R61). -/

namespace Sys2Proof.Machine

def exec (i : Instr) (s : State) : Host.Outcome State Fault Refusal :=
  match i with
  | .crc16 data => Sys2Proof.Machine.execCrc16 data s
  | .crc32 data => Sys2Proof.Machine.execCrc32 data s
  | .verEnc major minor => Sys2Proof.Machine.execVerEnc major minor s
  | .verDec v => Sys2Proof.Machine.execVerDec v s
  | .flgEnc a b f => Sys2Proof.Machine.execFlgEnc a b f s
  | .flgDec x => Sys2Proof.Machine.execFlgDec x s
  | .hdrEnc fields => Sys2Proof.Machine.execHdrEnc fields s
  | .hdrDec data => Sys2Proof.Machine.execHdrDec data s
  | .seqNext => Sys2Proof.Machine.execSeqNext s
  | .packStart ov body now => Sys2Proof.Machine.execPackStart ov body now s
  | .packNext => Sys2Proof.Machine.execPackNext s
  | .unpack packet => Sys2Proof.Machine.execUnpack packet s

end Sys2Proof.Machine
end

