-- ==== Sys2Proof/Machine/Perform.lean ====
section
/-! DEFINITION. Performing one client's command (00_scope.md R5, 60_exceptions.md R214). -/

namespace Sys2Proof.Machine

/-- A request is performed: its command is decoded (R214 point 1) and, where it is legal, executed for
its client. A reserved byte is answered IllegalCommand (R62). -/
def perform (r : Request) (s : State) : Host.Outcome State Fault Refusal :=
  if r.client < s.nClients then
    match decode r.command with
    | .ok i => exec i (s.accept r.client)
    | .error .illegalCommand => .next (performIllegal (s.accept r.client))
    | .error .operandMismatch => .refused .operandMismatch
  else .fault .noSuchClient

end Sys2Proof.Machine
end

