-- ==== Sys2Proof/Machine/Step.lean ====
section
/-! DEFINITION. One step: the next event of the total order (20_memory.md R47, R48) is performed. -/

namespace Sys2Proof.Machine

/-- One step. With no event to perform the block does nothing (R6, R221); a reset comes between two
commands (R241). -/
def step (s : State) : Host.Outcome State Fault Refusal :=
  match s.inbox with
  | [] => .next s
  | .reset :: _ => .next s.popEvent.resetBlock
  | .command r :: _ => perform r s

/-- The command of a table word, issued by client 0 as the very next event (log 11). Client 0 exists:
N_CLIENTS is at least 1 (R8). -/
def State.withFetchWord (s : State) (_nbits w : Nat) : State :=
  s.pushEvent (.command ⟨0, tableCommand w⟩)

end Sys2Proof.Machine
end

