-- ==== Sys2Proof/Safety.lean ====
section
/-! DEFINITION. What counts as a legal state and a safe run: the invariant of 10_state.md R20 to R24,
the requests the interface can carry, and the runs over them. -/

namespace Sys2Proof.Machine

/-- The invariants of an ACTIVE context (R24). The two clauses on SINGLE mode that R24 leaves to R23
(`index` 0 or 1, `offset` as PACK_START set it) are written out. -/
def Context.wf (ctx : Context) : Bool :=
  match ctx.mode with
  | .single => decide (ctx.body.length < 1024) && decide (ctx.index ≤ 1) && ctx.offset == 0
  | .frag   => decide (1024 ≤ ctx.body.length) && ctx.offset == 1024 * ctx.index

/-- A slot's context, where it has one, keeps the invariants of R24. -/
def Slot.wf : Slot → Bool
  | .idle => true
  | .active ctx => ctx.wf
  | .done => true

/-- A legal state: at least one client (R8) and legal slots (R24). `SEQ` is below `2^24` by its type
(R20). -/
def State.inv (s : State) : Bool := decide (1 ≤ s.nClients) && s.slots.all Slot.wf

/-- An event the environment can cause: a reset, or a request of one of the `n` clients that carries
an issuable command (R6, R60, R63, R241). -/
def Event.wf (n : Nat) : Event → Bool
  | .command r => r.wf n
  | .reset => true

/-- Every event still to come can be caused. -/
def State.inboxWf (s : State) : Bool := s.inbox.all (Event.wf s.nClients)

/-- Nothing stops the machine within `k` steps. -/
def safeFor (k : Nat) (s : State) : Prop := ∃ t, Host.Core.run Sys2Proof.core k s = .next t

end Sys2Proof.Machine
end

