-- ==== Sys2Proof/Reference.lean ====
section
/-! DEFINITION. The spec's own pseudocode and tables written a second time, on naturals and lists and
apart from the machine's definitions, for the statements to be made in terms of. -/

namespace Sys2Proof

open Machine

/-! ### Bits -/

/-- `d` with bit `k` of byte `i` changed (43_packet.md R182). -/
def flipBit (d : Bytes) (i k : Nat) : Bytes := d.set i (byteAt d i ^^^ BitVec.twoPow 8 k)

/-- The loop body of the CRC pseudocode, on naturals (40_checksum.md R100, R101). -/
def crcNatBit (poly crc : Nat) : Nat :=
  if crc % 2 = 1 then (crc / 2) ^^^ poly else crc / 2

/-- "repeat 8 times" becomes `crcNatBits poly 8`. -/
def crcNatBits (poly : Nat) : Nat → Nat → Nat
  | 0, crc => crc
  | k + 1, crc => crcNatBits poly k (crcNatBit poly crc)

/-- The whole loop of the CRC pseudocode, on naturals. -/
def crcNat (poly : Nat) : Nat → Bytes → Nat
  | crc, [] => crc
  | crc, b :: d => crcNat poly (crcNatBits poly 8 (crc ^^^ b.toNat)) d

/-- The number a string of decimal digits denotes. -/
def decimalValue (d : Bytes) : Nat := d.foldl (fun n b => 10 * n + (b.toNat - 48)) 0

/-- `d` is `dec(n)` (41_header_codec.md R121): decimal ASCII digits that denote `n`, at least one, with no
leading zero unless `n` is the single digit 0. -/
def isDecimal (n : Nat) (d : Bytes) : Prop :=
  d ≠ [] ∧ (∀ b ∈ d, 48 ≤ b.toNat ∧ b.toNat ≤ 57) ∧ decimalValue d = n ∧
    (d.head? = some 0x30#8 → d = [0x30#8])

/-! ### Records -/

/-- The input record with all thirteen fields present. -/
def FullRecord.toPartial (R : FullRecord) : PartialRecord where
  protVer     := some R.protVer
  flags       := some R.flags
  lenBody     := some R.lenBody
  time        := some R.time
  msgMjType   := some R.msgMjType
  msgMiType   := some R.msgMiType
  extHeader   := some R.extHeader
  sUniqid     := some R.sUniqid
  rUniqid     := some R.rUniqid
  sndSession  := some R.sndSession
  respSession := some R.respSession
  sndSeq      := some R.sndSeq
  respSeq     := some R.respSeq

/-- The value of a field that is a plain natural; none for `prot_ver` and `flags` (R74). -/
def FullRecord.plain (R : FullRecord) : HeaderField → Option Nat
  | .protVer => none
  | .flags => none
  | .lenBody => some R.lenBody
  | .time => some R.time
  | .msgMjType => some R.msgMjType
  | .msgMiType => some R.msgMiType
  | .extHeader => some R.extHeader
  | .sUniqid => some R.sUniqid
  | .rUniqid => some R.rUniqid
  | .sndSession => some R.sndSession
  | .respSession => some R.respSession
  | .sndSeq => some R.sndSeq
  | .respSeq => some R.respSeq

/-- The same of a decoded record (R74). -/
def DecodedRecord.plain (r : DecodedRecord) : HeaderField → Option Nat
  | .protVer => none
  | .flags => none
  | .lenBody => some r.lenBody
  | .time => some r.time
  | .msgMjType => some r.msgMjType
  | .msgMiType => some r.msgMiType
  | .extHeader => some r.extHeader
  | .sUniqid => some r.sUniqid
  | .rUniqid => some r.rUniqid
  | .sndSession => some r.sndSession
  | .respSession => some r.respSession
  | .sndSeq => some r.sndSeq
  | .respSeq => some r.respSeq

/-- Whether a field's value fits its header field (41_header_codec.md R127): a major of at most 15, any
flags, any other field below `2^width`. -/
def FullRecord.fitsField (R : FullRecord) (x : HeaderField) : Prop :=
  (x = .protVer → R.protVer.major ≤ 15) ∧ ∀ v, R.plain x = some v → v < 2 ^ x.width

/-- Every field fits: the record passes every check of R127. -/
def FullRecord.fits (R : FullRecord) : Prop := ∀ x, R.fitsField x

/-- What a field's bytes hold on the wire, as a number (30_encoding.md R64, R66, R67). -/
def FullRecord.wire (R : FullRecord) : HeaderField → Nat
  | .protVer => 16 * R.protVer.major + R.protVer.minor % 16
  | .flags => (32 * R.flags.a ||| 4 * R.flags.b ||| 2 * bit R.flags.f) % 256
  | .lenBody => R.lenBody
  | .time => R.time
  | .msgMjType => R.msgMjType
  | .msgMiType => R.msgMiType
  | .extHeader => R.extHeader
  | .sUniqid => R.sUniqid
  | .rUniqid => R.rUniqid
  | .sndSession => R.sndSession
  | .respSession => R.respSession
  | .sndSeq => R.sndSeq
  | .respSeq => R.respSeq

/-- What the flags come back as (41_header_codec.md R125): `((a | (b >> 3)) mod 8, b mod 8, f)`. -/
def FlagTriple.afterRoundTrip (t : FlagTriple) : FlagTriple :=
  ⟨(t.a ||| t.b / 8) % 8, t.b % 8, t.f⟩

/-- A decoded record is what a full record comes back as (R132): every plain field unchanged, the major
times 16, the minor modulo 16, the flags as R125 says. -/
def FullRecord.comesBackAs (R : FullRecord) (r : DecodedRecord) : Prop :=
  r.plain = R.plain ∧ r.protVer.majorRaw = 16 * R.protVer.major ∧
    r.protVer.minor = R.protVer.minor % 16 ∧ r.flags = R.flags.afterRoundTrip

/-- The record `D ⊕ ov` of a stream (43_packet.md R172, R173), field by field: an override where there is
one, else the default. -/
def streamRecord (p : Params) (ov : PartialRecord) (body : Bytes) (now : Nat) : PartialRecord where
  protVer     := some (ov.protVer.getD p.protVersion)
  flags       := some (ov.flags.getD p.defaultFlags)
  lenBody     := some (ov.lenBody.getD body.length)
  time        := some (ov.time.getD now)
  msgMjType   := ov.msgMjType
  msgMiType   := ov.msgMiType
  extHeader   := some (ov.extHeader.getD 0)
  sUniqid     := some (ov.sUniqid.getD 0)
  rUniqid     := some (ov.rUniqid.getD 0)
  sndSession  := some (ov.sndSession.getD 0)
  respSession := some (ov.respSession.getD 0)
  sndSeq      := ov.sndSeq
  respSeq     := some (ov.respSeq.getD 0)

/-! ### Commands -/

/-- `exec` completes the instruction with the status and result given, and changes nothing else in the
state: the response goes to the issuer, after the responses already given. -/
def Replies (i : Instr) (s : State) (st : Status) (r : Result) : Prop :=
  exec i s = .next { s with outbox := s.outbox ++ [⟨s.issuer, st, r⟩] }

/-- The nine commands that touch no shared state and no slot (20_memory.md R49). -/
def Instr.isPure : Instr → Bool
  | .crc16 _ => true
  | .crc32 _ => true
  | .verEnc _ _ => true
  | .verDec _ => true
  | .flgEnc _ _ _ => true
  | .flgDec _ => true
  | .hdrEnc _ => true
  | .hdrDec _ => true
  | .seqNext => false
  | .packStart _ _ _ => false
  | .packNext => false
  | .unpack _ => true

/-- `exec` completes the instruction with a status and a result, whatever else it does: its response is
the one new entry of the outbox, and it is the issuer's. -/
def Answers (i : Instr) (s t : State) (st : Status) (r : Result) : Prop :=
  exec i s = .next t ∧ t.outbox = s.outbox ++ [⟨s.issuer, st, r⟩]

/-! ### The sequence counter -/

/-- The command about to be performed takes a value of `SEQ`: a SEQ_NEXT, or a PACK_NEXT on an ACTIVE
slot with a packet left (42_sequence.md R163). -/
def takesValue (s : State) : Bool :=
  match s.inbox with
  | .command r :: _ =>
    match decode r.command with
    | .ok .seqNext => true
    | .ok .packNext =>
      match s.slot? r.client with
      | some (.active ctx) => !ctx.exhausted
      | _ => false
    | _ => false
  | _ => false

/-- The values taken from `SEQ` in the first `k` steps, in order (42_sequence.md R162). -/
def takenValues : Nat → State → List (BitVec 24)
  | 0, _ => []
  | k + 1, s =>
    match step s with
    | .next t => (if takesValue s then [s.seq] else []) ++ takenValues k t
    | _ => []

/-! ### Streams -/

/-- How many packets a message of `L` bytes takes (43_packet.md R180). -/
def packetCount (L : Nat) : Nat := if L < 1024 then 1 else (L + 1023) / 1024

/-- `chunk_k` of a message (R180). -/
def chunkAt (body : Bytes) (k : Nat) : Bytes :=
  slice body (1024 * k) (min (1024 * (k + 1)) body.length)

/-- The body of packet `k` of a message (30_encoding.md R68). -/
def packetBody (body : Bytes) (k : Nat) : Bytes :=
  if body.length < 1024 then body else beBytes 4 k ++ chunkAt body k

/-- Packet `k` of a message whose record is `R` and whose first counter value is `seq`: header ‖ body ‖
CRC-32 footer, with the `k`-th value after `seq` in `snd_seq` (43_packet.md R175 to R177). -/
def expectedPacket (R : FullRecord) (seq : BitVec 24) (body : Bytes) (k : Nat) : Bytes :=
  encodeHeader { R with sndSeq := (seq + BitVec.ofNat 24 k).toNat } ++ packetBody body k
    ++ beBytes 4 (crc32 (packetBody body k)).toNat

/-- The packets of a whole message, in order. -/
def expectedPackets (R : FullRecord) (seq : BitVec 24) (body : Bytes) : List Bytes :=
  (List.range (packetCount body.length)).map (expectedPacket R seq body)

/-- The clients whose commands stand in a list of events, in order. -/
def commandClients : List Event → List Nat
  | [] => []
  | .command r :: es => r.client :: commandClients es
  | .reset :: es => commandClients es

end Sys2Proof
end

