-- ==== Sys2Proof/Certificates/Slice0/Obligations.lean ====
section
/-! DEFINITION. The statements about the model, from the spec's numbered rules. `Replies i s st r` says
that `i` completes at `s` with that response and that nothing else in the state changes. -/

open Sys2Proof Sys2Proof.Machine

/-! ### Encoding -/

/-- R61: each byte of the opcode table, with its operands, decodes to the table's command, and the rows
0x00 and 0x0D to 0x0F are reserved. -/
def Obligations.CommandBytesDecode : Prop :=
  (∀ d, decode ⟨0b00000001#8, .data d⟩ = .ok (.crc16 d)) ∧
  (∀ d, decode ⟨0b00000010#8, .data d⟩ = .ok (.crc32 d)) ∧
  (∀ major minor, decode ⟨0b00000011#8, .version major minor⟩ = .ok (.verEnc major minor)) ∧
  (∀ v, decode ⟨0b00000100#8, .byte v⟩ = .ok (.verDec v)) ∧
  (∀ a b f, decode ⟨0b00000101#8, .flags a b f⟩ = .ok (.flgEnc a b f)) ∧
  (∀ x, decode ⟨0b00000110#8, .byte x⟩ = .ok (.flgDec x)) ∧
  (∀ F, decode ⟨0b00000111#8, .fields F⟩ = .ok (.hdrEnc F)) ∧
  (∀ d, decode ⟨0b00001000#8, .data d⟩ = .ok (.hdrDec d)) ∧
  decode ⟨0b00001001#8, .none⟩ = .ok .seqNext ∧
  (∀ ov body now, decode ⟨0b00001010#8, .message ov body now⟩ = .ok (.packStart ov body now)) ∧
  decode ⟨0b00001011#8, .none⟩ = .ok .packNext ∧
  (∀ p, decode ⟨0b00001100#8, .data p⟩ = .ok (.unpack p)) ∧
  ∀ v, decode ⟨0b00000000#8, v⟩ = .error .illegalCommand ∧
    decode ⟨0b00001101#8, v⟩ = .error .illegalCommand ∧
    decode ⟨0b00001110#8, v⟩ = .error .illegalCommand ∧
    decode ⟨0b00001111#8, v⟩ = .error .illegalCommand

/-- Decode and encode agree, both ways: a command decodes to `i` exactly when it is the encoding of `i`,
for every instruction and every operand value. -/
def Obligations.DecodeInvertsEncode : Prop :=
  ∀ (c : Command) (i : Instr), decode c = .ok i ↔ c = encode i

/-- R62: a byte is illegal exactly when `op` is 0x0, 0xD, 0xE or 0xF or `rsv` is not 0, and the step that
meets it answers IllegalCommand with no result and changes no state of the block. -/
def Obligations.ReservedBytesAnswerIllegal : Prop :=
  (∀ (b : Byte) (v : Operands), decode ⟨b, v⟩ = .error .illegalCommand ↔
    (b.toNat % 16 = 0x0 ∨ b.toNat % 16 = 0xD ∨ b.toNat % 16 = 0xE ∨ b.toNat % 16 = 0xF) ∨
      b.toNat / 16 ≠ 0) ∧
  ∀ (s : State) (r : Request) (es : List Event), s.inbox = .command r :: es →
    r.client < s.nClients → decode r.command = .error .illegalCommand →
    step s = .next { s with
      inbox := es, issuer := r.client,
      outbox := s.outbox ++ [⟨r.client, .illegalCommand, .none⟩] }

/-- The well-formedness checks and the decoder agree: the well-formed commands are those with an
instruction, and the commands the interface can carry are those whose operands fit. -/
def Obligations.WellFormedCommandsDecode : Prop :=
  ∀ c : Command, (c.wf = true ↔ ∃ i, decode c = .ok i) ∧
    (c.issuable = true ↔ decode c ≠ .error .operandMismatch)

/-- R80: the numeric code of every status, with its info. -/
def Obligations.StatusCodesFollowTheTable : Prop :=
  Status.ok.code = 0 ∧ Status.ok.info = none ∧
  (∀ i, (Status.missingField i).code = 1 ∧ (Status.missingField i).info = some i) ∧
  Status.invalidHeaderLength.code = 2 ∧ Status.invalidHeaderLength.info = none ∧
  Status.headerIntegrityError.code = 3 ∧ Status.headerIntegrityError.info = none ∧
  Status.invalidPacketLength.code = 4 ∧ Status.invalidPacketLength.info = none ∧
  Status.bodyIntegrityError.code = 5 ∧ Status.bodyIntegrityError.info = none ∧
  (∀ i, (Status.fieldRange i).code = 6 ∧ (Status.fieldRange i).info = some i) ∧
  Status.noStream.code = 7 ∧ Status.noStream.info = none ∧
  Status.illegalCommand.code = 8 ∧ Status.illegalCommand.info = none ∧
  Status.endOfStream.code = 9 ∧ Status.endOfStream.info = none ∧
  (∀ st : Status, st.isFailure = true ↔ 1 ≤ st.code ∧ st.code ≤ 8)

/-- R42, R41: `fromBE(d)` is the sum over `i` of `d[i] * 2^(8*(n-1-i))`, and gives back every `v < 2^(8n)`
from `BE_n(v)`, whose `n` bytes are `(v >> (8*(n-1-i))) & 0xFF`. -/
def Obligations.BigEndianRoundTrip : Prop :=
  (∀ d : Bytes, fromBE d =
    ((List.range d.length).map fun i => (byteAt d i).toNat * 2 ^ (8 * (d.length - 1 - i))).sum) ∧
  ∀ n v : Nat, (beBytes n v).length = n ∧
    (∀ i, i < n → (byteAt (beBytes n v) i).toNat = (v >>> (8 * (n - 1 - i))) % 256) ∧
    (v < 2 ^ (8 * n) → fromBE (beBytes n v) = v)

/-! ### Steps, reset, invariants -/

/-- R5, R48, R63: the step that meets a legal command of a client `c` is the execution of the decoded
instruction for `c`, with that one event taken off the inbox. -/
def Obligations.StepPerformsDecodedCommand : Prop :=
  ∀ (s : State) (r : Request) (es : List Event) (i : Instr), s.inbox = .command r :: es →
    r.client < s.nClients → decode r.command = .ok i →
    step s = exec i { s with inbox := es, issuer := r.client }

/-- With no event to perform the block does nothing (R221: "it does nothing between commands"; the step
that stutters is the model's choice, log 7). -/
def Obligations.IdleBlockDoesNothing : Prop :=
  ∀ s : State, s.inbox = [] → step s = .next s

/-- R240, R241: after reset `SEQ` is 0 and the slot of every client IDLE, and a reset event sets exactly
that, whatever streams are open; the parameters and the number of clients stay. That the reset is an event
of the inbox, and that it leaves the issuer, the other events and the responses given, is the model's
choice (log 8). -/
def Obligations.ResetClearsTheBlock : Prop :=
  (State.reset.seq = 0 ∧ State.reset.slots.length = Config.nClients ∧ 1 ≤ Config.nClients ∧
    ∀ c, c < Config.nClients → State.reset.slot? c = some .idle) ∧
  ∀ (s : State) (es : List Event), s.inbox = .reset :: es →
    ∃ t, step s = .next t ∧ t.seq = 0 ∧ t.slots.length = s.slots.length ∧
      (∀ c, c < s.slots.length → t.slot? c = some .idle) ∧
      t.params = s.params ∧ t.issuer = s.issuer ∧ t.inbox = es ∧ t.outbox = s.outbox

/-- A step stops in two cases only, both on requests the spec does not have: a fault for a client that
does not exist (log 10), a refusal for operands of another command's type (log 9). -/
def Obligations.StepStopsOnlyOnImpossibleRequests : Prop :=
  ∀ s : State,
    ((∃ f, step s = .fault f) ↔ ∃ r es, s.inbox = .command r :: es ∧ s.nClients ≤ r.client) ∧
    ((∃ q, step s = .refused q) ↔ ∃ r es, s.inbox = .command r :: es ∧ r.client < s.nClients ∧
      decode r.command = .error .operandMismatch)

/-- R24: every step keeps the invariants of the slots, from every legal state. -/
def Obligations.StepKeepsSlotInvariants : Prop :=
  ∀ s t : State, s.inv = true → step s = .next t → t.inv = true

/-- The state after reset is legal. -/
def Obligations.ResetIsLegal : Prop := State.reset.inv = true

/-- R24: in a legal FRAG context a packet is left exactly when `offset < len(body)`, in a legal SINGLE
context exactly when `index = 0`; the mode is SINGLE exactly when the body is shorter than 1024; and
in FRAG mode `offset = 1024 * index`. -/
def Obligations.LegalContextShape : Prop :=
  ∀ ctx : Context, ctx.wf = true →
    (ctx.mode = .single ↔ ctx.body.length < 1024) ∧
    (ctx.mode = .frag → ctx.offset = 1024 * ctx.index ∧
      (ctx.exhausted = false ↔ ctx.offset < ctx.body.length)) ∧
    (ctx.mode = .single → (ctx.exhausted = false ↔ ctx.index = 0))

/-- R23, R24: while a stream stays open its record (so its `time` and `len_body`), its body and its mode
do not change; only a PACK_START of its own client replaces them. -/
def Obligations.OpenStreamKeepsItsRecord : Prop :=
  ∀ (i : Instr) (s t : State) (c : Nat) (ctx ctx' : Context), exec i s = .next t →
    s.slot? c = some (.active ctx) → t.slot? c = some (.active ctx') →
    (c = s.issuer → ∀ ov body now, i ≠ .packStart ov body now) →
    ctx'.hdr = ctx.hdr ∧ ctx'.body = ctx.body ∧ ctx'.mode = ctx.mode

/-- R27, R240, R243: no step changes the parameters or the number of clients. -/
def Obligations.ParametersNeverChange : Prop :=
  ∀ s t : State, step s = .next t → t.params = s.params ∧ t.nClients = s.nClients

/-- R5, R80, R212: an instruction that completes gives exactly one response, to its issuer, after those
already given; and it touches neither the events to come, nor the issuer, nor the parameters. -/
def Obligations.OneResponseToTheIssuer : Prop :=
  ∀ (i : Instr) (s t : State), exec i s = .next t →
    (∃ st r, t.outbox = s.outbox ++ [⟨s.issuer, st, r⟩]) ∧
    t.inbox = s.inbox ∧ t.issuer = s.issuer ∧ t.params = s.params ∧ t.nClients = s.nClients

/-- R63, R178: only PACK_NEXT gives END, and END carries no result and takes no counter value. -/
def Obligations.EndOfStreamCarriesNothing : Prop :=
  ∀ (i : Instr) (s t : State) (r : Result), Answers i s t .endOfStream r →
    i = .packNext ∧ r = .none ∧ t.seq = s.seq

/-- R176, R179, R211: a failing command gives no result, and writes nothing but, at most, PACK_NEXT's two
writes, `SEQ` advanced by one and its issuer's slot DONE. That a failed emission does make both writes is
`FailedEmissionClosesTheStream`. -/
def Obligations.FailingCommandsWriteNothingElse : Prop :=
  ∀ (i : Instr) (s t : State) (st : Status) (r : Result), Answers i s t st r → st.isFailure = true →
    r = .none ∧
    ((t.seq = s.seq ∧ t.slots = s.slots) ∨
     (i = .packNext ∧ st ≠ .noStream ∧ t.seq = s.seq + 1 ∧ t.slots = s.slots.set s.issuer .done))

/-- R22, R220: an instruction of one client reads and writes no other client's slot. -/
def Obligations.SlotsArePrivate : Prop :=
  (∀ (i : Instr) (s t : State) (c : Nat), exec i s = .next t → c ≠ s.issuer →
    t.slot? c = s.slot? c) ∧
  ∀ (i : Instr) (s s' t t' : State), exec i s = .next t → exec i s' = .next t' →
    s'.seq = s.seq → s'.params = s.params → s'.issuer = s.issuer →
    s'.slot? s.issuer = s.slot? s.issuer →
    t'.seq = s'.seq + (t.seq - s.seq) ∧ t'.slot? s.issuer = t.slot? s.issuer ∧
      ∃ st r, t.outbox = s.outbox ++ [⟨s.issuer, st, r⟩] ∧ t'.outbox = s'.outbox ++ [⟨s.issuer, st, r⟩]

/-- R46, R49: the nine commands that touch no state complete in every state, with a response that is
the same in every state; so performing one before any other command changes neither that command's
response nor what it does to the block. -/
def Obligations.PureCommandsCommute : Prop :=
  ∀ i : Instr, i.isPure = true → ∃ st r, (∀ s, Replies i s st r) ∧
    ∀ (j : Instr) (s t u v : State), exec j s = .next t → exec i s = .next u → exec j u = .next v →
      v.seq = t.seq ∧ v.slots = t.slots ∧
        ∃ st' r', t.outbox = s.outbox ++ [⟨s.issuer, st', r'⟩] ∧
          v.outbox = s.outbox ++ [⟨s.issuer, st, r⟩, ⟨s.issuer, st', r'⟩]

/-- R5, R80, R259: from a legal state, every inbox the environment can cause is performed to its end with
no stop, one step for each event, and every command gets one response, in order, to its own client. -/
def Obligations.EveryRequestIsServed : Prop :=
  ∀ s : State, s.inv = true → s.inboxWf = true →
    ∃ t, Host.Core.run core s.inbox.length s = .next t ∧ t.inbox = [] ∧ t.inv = true ∧
      t.outbox.map Response.client = s.outbox.map Response.client ++ commandClients s.inbox

/-! ### The checksum unit -/

/-- CRC16 completes in every state with the value of the loop of R100 on naturals (polynomial 0xA001,
initial value 0, no final XOR: from general knowledge, log 12); sequences of zeros give 0. -/
def Obligations.Crc16RunsTheLoop : Prop :=
  (∀ (d : Bytes) (s : State), ∃ c : BitVec 16, Replies (.crc16 d) s .ok (.nat16 c) ∧
    c.toNat = crcNat 0xA001 0x0000 d) ∧
  (∀ (n : Nat) (s : State), Replies (.crc16 (List.replicate n 0x00#8)) s .ok (.nat16 0x0000#16)) ∧
  ∀ s, Replies (.crc16 [0x31#8, 0x32#8, 0x33#8, 0x34#8, 0x35#8, 0x36#8, 0x37#8, 0x38#8, 0x39#8]) s .ok
    (.nat16 0xBB3D#16)

/-- CRC32 completes in every state with the value of the loop of R101 on naturals (polynomial
0xEDB88320, initial value and final XOR all ones: from general knowledge, log 12). -/
def Obligations.Crc32RunsTheLoop : Prop :=
  (∀ (d : Bytes) (s : State), ∃ c : BitVec 32, Replies (.crc32 d) s .ok (.nat32 c) ∧
    c.toNat = crcNat 0xEDB88320 0xFFFFFFFF d ^^^ 0xFFFFFFFF) ∧
  (∀ s, Replies (.crc32 []) s .ok (.nat32 0x00000000#32)) ∧
  (∀ s, Replies (.crc32 [0x00#8]) s .ok (.nat32 0xD202EF8D#32)) ∧
  ∀ s, Replies (.crc32 [0x31#8, 0x32#8, 0x33#8, 0x34#8, 0x35#8, 0x36#8, 0x37#8, 0x38#8, 0x39#8]) s .ok
    (.nat32 0xCBF43926#32)

/-- R104 (from general knowledge, G3): changing any single bit of the data changes both CRCs. -/
def Obligations.CrcsDetectSingleBitChanges : Prop :=
  ∀ (d : Bytes) (i k : Nat), i < d.length → k < 8 →
    crc16 (flipBit d i k) ≠ crc16 d ∧ crc32 (flipBit d i k) ≠ crc32 d

/-! ### The version and flags bytes -/

/-- R120: VER_ENC completes in every state: the version byte where the major is at most 15, with the
minor masked, and FieldRange(0) where it is not. -/
def Obligations.VersionEncodes : Prop :=
  (∀ major minor, decode ⟨0x03#8, .version major minor⟩ = .ok (.verEnc major minor)) ∧
  (∀ (major minor : Nat) (s : State), major ≤ 15 →
    ∃ v : Byte, Replies (.verEnc major minor) s .ok (.byte v) ∧ v.toNat = 16 * major + minor % 16) ∧
  ∀ (major minor : Nat) (s : State), 15 < major → Replies (.verEnc major minor) s (.fieldRange 0) .none

/-- R121: VER_DEC completes in every state; the major is the high nibble NOT shifted, the minor the low
nibble, and the text the two in decimal around a dot (the rendering is from general knowledge, G4,
log 13). -/
def Obligations.VersionDecodes : Prop :=
  ∀ (v : Byte) (s : State), ∃ x : DecodedVersion, Replies (.verDec v) s .ok (.version x) ∧
    x.majorRaw = 16 * (v.toNat / 16) ∧ x.minor = v.toNat % 16 ∧
    ∃ A B, x.text = A ++ [0x2E#8] ++ B ∧ isDecimal x.majorRaw A ∧ isDecimal x.minor B

/-- R121: `dec(n)` is the decimal digits of `n`, for every natural (log 13). -/
def Obligations.DecIsDecimal : Prop := ∀ n : Nat, isDecimal n (dec n)

/-- R122: what a version comes back as, and that the round trip is exact only for major 0 and a minor of
at most 15. -/
def Obligations.VersionRoundTrip : Prop :=
  ∀ (major minor : Nat) (s t : State) (v : Byte), major ≤ 15 →
    Replies (.verEnc major minor) s .ok (.byte v) →
    ∃ x : DecodedVersion, Replies (.verDec v) t .ok (.version x) ∧
      x.majorRaw = 16 * major ∧ x.minor = minor % 16 ∧
      ((x.majorRaw = major ∧ x.minor = minor) ↔ (major = 0 ∧ minor ≤ 15))

/-- R123: FLG_ENC completes in every state, for all naturals, with the formula's byte modulo 256; bit 0
is always 0; for `b ≤ 7` only `a mod 8` survives of `a`. -/
def Obligations.FlagsEncode : Prop :=
  (∀ a b f, decode ⟨0x05#8, .flags a b f⟩ = .ok (.flgEnc a b f)) ∧
  ∀ (a b : Nat) (f : Bool) (s : State), ∃ x : Byte, Replies (.flgEnc a b f) s .ok (.byte x) ∧
    x.toNat = (32 * a ||| 4 * b ||| 2 * bit f) % 256 ∧ x.toNat % 2 = 0 ∧
    (b ≤ 7 → x.toNat = 32 * (a % 8) + 4 * b + 2 * bit f)

/-- R124: FLG_DEC completes in every state with bits 7..5, bits 4..2 and bit 1; bit 0 is ignored. -/
def Obligations.FlagsDecode : Prop :=
  (∀ x, decode ⟨0x06#8, .byte x⟩ = .ok (.flgDec x)) ∧
  ∀ (x : Byte) (s : State), ∃ t : FlagTriple, Replies (.flgDec x) s .ok (.flags t) ∧
    t.a = x.toNat / 32 ∧ t.b = x.toNat / 4 % 8 ∧ (t.f = true ↔ x.toNat / 2 % 2 = 1)

/-- R125: what flags come back as, and that the round trip is exact only for `a` and `b` at most 7. -/
def Obligations.FlagsRoundTrip : Prop :=
  ∀ (a b : Nat) (f : Bool) (s t : State) (x : Byte), Replies (.flgEnc a b f) s .ok (.byte x) →
    ∃ u : FlagTriple, Replies (.flgDec x) t .ok (.flags u) ∧
      u = ⟨(a ||| b / 8) % 8, b % 8, f⟩ ∧ (u = ⟨a, b, f⟩ ↔ a ≤ 7 ∧ b ≤ 7)

/-! ### The header codec -/

/-- R126, R64, R65: HDR_ENC of a record whose every field fits completes in every state with 40 bytes:
each field's bytes hold its value big-endian at its offset, and bytes 38 and 39 the CRC-16 of the 38
before them. -/
def Obligations.HeaderEncodesTheLayout : Prop :=
  (∀ F, decode ⟨0x07#8, .fields F⟩ = .ok (.hdrEnc F)) ∧
  ∀ (R : FullRecord) (s : State), R.fits →
    ∃ h : Bytes, Replies (.hdrEnc R.toPartial) s .ok (.header h) ∧ h.length = 40 ∧
      (∀ x : HeaderField, fromBE (headerBytes h x) = R.wire x) ∧
      slice h 38 40 = beBytes 2 (crc16 (slice h 0 38)).toNat

/-- R127: HDR_ENC of a record that lacks fields gets MissingField with the lowest missing index, whatever
its other values are; of a record that has every field but some that do not fit, FieldRange with the
lowest such index (the flags always fit); every other record passes. -/
def Obligations.HeaderChecksInOrder : Prop :=
  (∀ (F : PartialRecord) (s : State) (x : HeaderField), F.has x = false →
    (∀ y : HeaderField, y.index < x.index → F.has y = true) →
    Replies (.hdrEnc F) s (.missingField x.index) .none) ∧
  (∀ (R : FullRecord) (s : State) (x : HeaderField), ¬ R.fitsField x →
    (∀ y : HeaderField, y.index < x.index → R.fitsField y) →
    Replies (.hdrEnc R.toPartial) s (.fieldRange x.index) .none) ∧
  ∀ (R : FullRecord) (s : State), R.fits →
    ∃ h : Bytes, Replies (.hdrEnc R.toPartial) s .ok (.header h)

/-- R130, R131: HDR_DEC completes in every state: InvalidHeaderLength unless the input is 40 bytes, then
HeaderIntegrityError unless the stored CRC-16 matches, then every field read at its offset. -/
def Obligations.HeaderDecodes : Prop :=
  (∀ d, decode ⟨0x08#8, .data d⟩ = .ok (.hdrDec d)) ∧
  ∀ (d : Bytes) (s : State),
    (d.length ≠ 40 → Replies (.hdrDec d) s .invalidHeaderLength .none) ∧
    (d.length = 40 → fromBE (slice d 38 40) ≠ (crc16 (slice d 0 38)).toNat →
      Replies (.hdrDec d) s .headerIntegrityError .none) ∧
    (d.length = 40 → fromBE (slice d 38 40) = (crc16 (slice d 0 38)).toNat →
      ∃ r : DecodedRecord, Replies (.hdrDec d) s .ok (.fields r) ∧
        (∀ x v, r.plain x = some v → v = fromBE (headerBytes d x)) ∧
        r.protVer = decodeVersion (byteAt d 0) ∧ r.flags = decodeFlags (byteAt d 1))

/-- R74: every field of a decoded record is within its width. -/
def Obligations.DecodedFieldsFit : Prop :=
  ∀ (d : Bytes) (s : State) (r : DecodedRecord), Replies (.hdrDec d) s .ok (.fields r) →
    (∀ x v, r.plain x = some v → v < 2 ^ x.width) ∧ r.flags.a ≤ 7 ∧ r.flags.b ≤ 7 ∧
      r.protVer.majorRaw % 16 = 0 ∧ r.protVer.majorRaw ≤ 240 ∧ r.protVer.minor ≤ 15

/-- R131: changing any single bit of the 40 bytes of a valid header gives HeaderIntegrityError. -/
def Obligations.HeaderTamperDetected : Prop :=
  ∀ (d : Bytes) (s t : State) (r : DecodedRecord) (i k : Nat), Replies (.hdrDec d) s .ok (.fields r) →
    i < 40 → k < 8 → Replies (.hdrDec (flipBit d i k)) t .headerIntegrityError .none

/-- R132: a header that HDR_ENC gave is decoded with OK, and its fields come back unchanged but for the
version and the flags. -/
def Obligations.HeaderRoundTrip : Prop :=
  ∀ (R : FullRecord) (s t : State) (h : Bytes), Replies (.hdrEnc R.toPartial) s .ok (.header h) →
    ∃ r : DecodedRecord, Replies (.hdrDec h) t .ok (.fields r) ∧ R.comesBackAs r

/-- R257: forty zero bytes are a valid header and forty-four a valid packet with an empty body. -/
def Obligations.AllZeroDataPasses : Prop :=
  ∀ s : State, ∃ r : DecodedRecord,
    Replies (.hdrDec (List.replicate 40 0x00#8)) s .ok (.fields r) ∧
    Replies (.unpack (List.replicate 44 0x00#8)) s .ok (.unpacked r []) ∧
    (∀ x v, r.plain x = some v → v = 0) ∧ r.flags = ⟨0, 0, false⟩ ∧
    r.protVer = ⟨0, 0, [0x30#8, 0x2E#8, 0x30#8]⟩

/-! ### The sequence counter -/

/-- R160: SEQ_NEXT completes in every state: it returns `SEQ` and leaves `(SEQ + 1) mod 2^24`, and
changes nothing else. -/
def Obligations.SeqNextTakesAndAdvances : Prop :=
  decode ⟨0x09#8, .none⟩ = .ok .seqNext ∧
  ∀ s : State, ∃ v : BitVec 32, v.toNat = s.seq.toNat ∧ v.toNat < 2 ^ 24 ∧
    exec .seqNext s = .next { s with
      seq := BitVec.ofNat 24 ((s.seq.toNat + 1) % 2 ^ 24),
      outbox := s.outbox ++ [⟨s.issuer, .ok, .nat32 v⟩] }

/-- R20, R163: a command takes one value of `SEQ` or none, and moves `SEQ` by as much: only a SEQ_NEXT,
and a PACK_NEXT on an ACTIVE slot with a packet left, whether its emission succeeds or fails. -/
def Obligations.OnlyTakersMoveTheCounter : Prop :=
  ∀ s t : State, s.inbox.head? ≠ some .reset → step s = .next t →
    t.seq = if takesValue s then s.seq + 1 else s.seq

/-- R162: with no reset among the events, the values taken in a run are consecutive modulo `2^24` from the
`SEQ` the run began with, none skipped; so any `2^24` consecutive takes are pairwise distinct. -/
def Obligations.TakenValuesAreConsecutive : Prop :=
  ∀ (k : Nat) (s : State), (∀ e ∈ s.inbox.take k, e ≠ .reset) →
    (∀ j v, (takenValues k s)[j]? = some v → v = s.seq + BitVec.ofNat 24 j) ∧
    ∀ i j v w, (takenValues k s)[i]? = some v → (takenValues k s)[j]? = some w → i < j →
      j - i < 2 ^ 24 → v ≠ w

/-- R164: the counter value always fits `snd_seq`: stamping it never makes an encode fail on that field. -/
def Obligations.StampingNeverFails : Prop :=
  ∀ (F : PartialRecord) (q : BitVec 24) (s t : State) (st : Status) (r : Result),
    Answers (.hdrEnc (F.setSndSeq q)) s t st r → st ≠ .missingField 11 ∧ st ≠ .fieldRange 11

/-! ### Streams -/

/-- R170 to R174: PACK_START of an existing client completes whatever its slot holds: it opens a stream
at index 0 with the defaults under the overrides, in the mode the real body length gives, and
touches nothing else; `SEQ` is not moved and nothing is validated. -/
def Obligations.PackStartOpensAStream : Prop :=
  (∀ ov body now, decode ⟨0x0A#8, .message ov body now⟩ = .ok (.packStart ov body now)) ∧
  ∀ (ov : PartialRecord) (body : Bytes) (now : Nat) (s : State), s.issuer < s.nClients →
    exec (.packStart ov body now) s = .next { s with
      slots := s.slots.set s.issuer (.active
        { hdr := streamRecord s.params ov body now, body := body,
          mode := if body.length < 1024 then .single else .frag, index := 0, offset := 0 }),
      outbox := s.outbox ++ [⟨s.issuer, .ok, .none⟩] }

/-- R175, R178: PACK_NEXT with no packet to give, in every state of the slot: NoStream on IDLE, END on
DONE with no change of state, END on an exhausted stream, which becomes DONE; no counter value is
taken. -/
def Obligations.PackNextWithoutAPacket : Prop :=
  ∀ s : State,
    (s.slot? s.issuer = some .idle → Replies .packNext s .noStream .none) ∧
    (s.slot? s.issuer = some .done → Replies .packNext s .endOfStream .none) ∧
    ∀ ctx, s.slot? s.issuer = some (.active ctx) →
      ((ctx.mode = .single ∧ ctx.index = 1) ∨ (ctx.mode = .frag ∧ ctx.body.length ≤ ctx.offset)) →
      exec .packNext s = .next { s with
        slots := s.slots.set s.issuer .done,
        outbox := s.outbox ++ [⟨s.issuer, .endOfStream, .none⟩] }

/-- R175, R176: PACK_NEXT on a SINGLE stream with its packet left and a record that fits, `snd_seq`
being the value of `SEQ` taken: header ‖ body ‖ CRC-32 of the body; `SEQ` moves by one. -/
def Obligations.PackNextEmitsASinglePacket : Prop :=
  ∀ (s : State) (ctx : Context) (R : FullRecord), s.slot? s.issuer = some (.active ctx) →
    ctx.mode = .single → ctx.index ≠ 1 →
    { ctx.hdr with sndSeq := some s.seq.toNat } = R.toPartial → R.fits →
    ∃ h : Bytes, Replies (.hdrEnc R.toPartial) s .ok (.header h) ∧
      exec .packNext s = .next { s with
        seq := s.seq + 1,
        slots := s.slots.set s.issuer (.active { ctx with index := 1 }),
        outbox := s.outbox ++
          [⟨s.issuer, .ok, .packet (h ++ ctx.body ++ beBytes 4 (crc32 ctx.body).toNat)⟩] }

/-- R175 to R177: PACK_NEXT on a FRAG stream with a chunk left, a record that fits and an index below
`2^32`: header ‖ index ‖ chunk ‖ CRC-32 of index and chunk; the cursor moves by one fragment and `SEQ`
by one. -/
def Obligations.PackNextEmitsAFragment : Prop :=
  ∀ (s : State) (ctx : Context) (R : FullRecord), s.slot? s.issuer = some (.active ctx) →
    ctx.mode = .frag → ctx.offset < ctx.body.length → ctx.index < 2 ^ 32 →
    { ctx.hdr with sndSeq := some s.seq.toNat } = R.toPartial → R.fits →
    ∃ h b : Bytes, Replies (.hdrEnc R.toPartial) s .ok (.header h) ∧
      b = beBytes 4 ctx.index ++ slice ctx.body ctx.offset (min (ctx.offset + 1024) ctx.body.length) ∧
      exec .packNext s = .next { s with
        seq := s.seq + 1,
        slots := s.slots.set s.issuer
          (.active { ctx with index := ctx.index + 1, offset := ctx.offset + 1024 }),
        outbox := s.outbox ++ [⟨s.issuer, .ok, .packet (h ++ b ++ beBytes 4 (crc32 b).toNat)⟩] }

/-- R176, R177, R179: a PACK_NEXT with a packet left that cannot be encoded takes a counter value, closes
the stream and answers the failure HDR_ENC gives of the stamped record; a FRAG stream whose record
encodes but whose index is `2^32` or more answers FieldRange(13) in the same way. -/
def Obligations.FailedEmissionClosesTheStream : Prop :=
  ∀ (s : State) (ctx : Context), s.slot? s.issuer = some (.active ctx) → ctx.exhausted = false →
    (∀ st, Replies (.hdrEnc { ctx.hdr with sndSeq := some s.seq.toNat }) s st .none →
      exec .packNext s = .next { s with
        seq := s.seq + 1, slots := s.slots.set s.issuer .done,
        outbox := s.outbox ++ [⟨s.issuer, st, .none⟩] }) ∧
    (∀ h, Replies (.hdrEnc { ctx.hdr with sndSeq := some s.seq.toNat }) s .ok (.header h) →
      ctx.mode = .frag → 2 ^ 32 ≤ ctx.index →
      exec .packNext s = .next { s with
        seq := s.seq + 1, slots := s.slots.set s.issuer .done,
        outbox := s.outbox ++ [⟨s.issuer, .fieldRange 13, .none⟩] })

/-- R68: the lengths of the packets a legal stream gives: 44 to 1067 bytes in SINGLE mode, 49 to 1072 in
FRAG mode. -/
def Obligations.PacketLengths : Prop :=
  ∀ (s t : State) (ctx : Context) (p : Bytes), s.slot? s.issuer = some (.active ctx) → ctx.wf = true →
    Answers .packNext s t .ok (.packet p) →
    (ctx.mode = .single → p.length = 44 + ctx.body.length ∧ p.length ≤ 1067) ∧
    (ctx.mode = .frag → p.length = 48 + min 1024 (ctx.body.length - ctx.offset) ∧
      49 ≤ p.length ∧ p.length ≤ 1072)

/-- R180, R69, of the machine's packets: where PACK_ALL (uninterleaved, log 16) comes to END, a message of
`L < 1024` bytes was one packet carrying it, and a longer one `(L + 1023) div 1024` packets, the `k`-th
carrying index `k` and the bytes `[1024k, min(1024(k+1), L))`, which are `min(1024, L - 1024k)` and at
least 1; together, in order, the chunks are the message. -/
def Obligations.ChunksMakeUpTheMessage : Prop :=
  ∀ (ov : PartialRecord) (body : Bytes) (now : Nat) (s : State) (res : PackAllResult),
    packAll ov body now s = some res → res.final = .endOfStream →
    (body.length < 1024 → ∃ p, res.packets = [p] ∧ p.length = 44 + body.length ∧
      slice p 40 (p.length - 4) = body) ∧
    (1024 ≤ body.length →
      res.packets.length = (body.length + 1023) / 1024 ∧
      (∀ k p, res.packets[k]? = some p →
        fromBE (slice p 40 44) = k ∧
        slice p 44 (p.length - 4) = slice body (1024 * k) (min (1024 * (k + 1)) body.length) ∧
        p.length = 48 + min 1024 (body.length - 1024 * k) ∧ 1 ≤ body.length - 1024 * k) ∧
      (res.packets.map fun p => slice p 44 (p.length - 4)).flatten = body)

/-- R76, R180, R184: PACK_ALL of a message whose record fits, with no other command between (log 16),
gives all its packets in order, each with the next counter value and the same record, then END; it
takes as many values as there are packets and leaves the slot DONE. -/
def Obligations.PackAllEmitsTheWholeMessage : Prop :=
  ∀ (ov : PartialRecord) (body : Bytes) (now : Nat) (s : State) (R : FullRecord),
    s.issuer < s.nClients →
    { streamRecord s.params ov body now with sndSeq := some 0 } = R.toPartial → R.fits →
    body.length ≤ 2 ^ 42 →
    ∃ res, packAll ov body now s = some res ∧ res.final = .endOfStream ∧
      res.packets = expectedPackets R s.seq body ∧
      res.state = { s with
        seq := s.seq + BitVec.ofNat 24 (packetCount body.length),
        slots := s.slots.set s.issuer .done,
        outbox := s.outbox ++ [⟨s.issuer, .ok, .none⟩]
          ++ (expectedPackets R s.seq body).map (fun p => ⟨s.issuer, .ok, .packet p⟩)
          ++ [⟨s.issuer, .endOfStream, .none⟩] }

/-- R251: two open streams share the counter. When client `c` pulls, then client `d`, then `c` again, and
each pull gives a packet, their `snd_seq` fields are three consecutive values, so those of `c`'s two
packets differ by 2. -/
def Obligations.InterleavedStreamsShareTheCounter : Prop :=
  ∀ (s t : State) (c d : Nat) (p1 p2 p3 : Bytes), c ≠ d →
    s.inbox = [.command ⟨c, encode .packNext⟩, .command ⟨d, encode .packNext⟩,
      .command ⟨c, encode .packNext⟩] →
    Host.Core.run core 3 s = .next t →
    t.outbox = s.outbox ++
      [⟨c, .ok, .packet p1⟩, ⟨d, .ok, .packet p2⟩, ⟨c, .ok, .packet p3⟩] →
    fromBE (headerBytes p1 .sndSeq) = s.seq.toNat ∧
    fromBE (headerBytes p2 .sndSeq) = (s.seq.toNat + 1) % 2 ^ 24 ∧
    fromBE (headerBytes p3 .sndSeq) = (s.seq.toNat + 2) % 2 ^ 24

/-! ### Unpacking -/

/-- R181: UNPACK completes in every state, with its checks in order: InvalidPacketLength under 44 bytes,
BodyIntegrityError unless the footer is the CRC-32 of the bytes between header and footer,
HeaderIntegrityError unless the header's CRC-16 matches, else the record HDR_DEC gives of the first 40
bytes and the body as received. -/
def Obligations.UnpackChecksAndSplits : Prop :=
  (∀ p, decode ⟨0x0C#8, .data p⟩ = .ok (.unpack p)) ∧
  ∀ (p : Bytes) (s : State),
    (p.length < 44 → Replies (.unpack p) s .invalidPacketLength .none) ∧
    (44 ≤ p.length →
      (crc32 (slice p 40 (p.length - 4))).toNat ≠ fromBE (slice p (p.length - 4) p.length) →
      Replies (.unpack p) s .bodyIntegrityError .none) ∧
    (44 ≤ p.length →
      (crc32 (slice p 40 (p.length - 4))).toNat = fromBE (slice p (p.length - 4) p.length) →
      (fromBE (slice p 38 40) ≠ (crc16 (slice p 0 38)).toNat →
        Replies (.unpack p) s .headerIntegrityError .none) ∧
      (fromBE (slice p 38 40) = (crc16 (slice p 0 38)).toNat →
        ∃ r, Replies (.hdrDec (slice p 0 40)) s .ok (.fields r) ∧
          Replies (.unpack p) s .ok (.unpacked r (slice p 40 (p.length - 4)))))

/-- R181: InvalidHeaderLength never comes out of UNPACK. -/
def Obligations.UnpackNeverReportsHeaderLength : Prop :=
  ∀ (p : Bytes) (s t : State) (st : Status) (r : Result), Answers (.unpack p) s t st r →
    st ≠ .invalidHeaderLength

/-- R182: changing any single bit of a packet that UNPACK accepts gives HeaderIntegrityError in the first
40 bytes and BodyIntegrityError in the body and the footer. -/
def Obligations.PacketTamperDetected : Prop :=
  ∀ (p : Bytes) (s t : State) (r : DecodedRecord) (b : Bytes) (i k : Nat),
    Replies (.unpack p) s .ok (.unpacked r b) → i < p.length → k < 8 →
    (i < 40 → Replies (.unpack (flipBit p i k)) t .headerIntegrityError .none) ∧
    (40 ≤ i → Replies (.unpack (flipBit p i k)) t .bodyIntegrityError .none)

/-- R183: any valid header in front of any body with its CRC-32 is accepted: no field is compared with
the body, the length is not limited, and a fragment is not told from a single packet. -/
def Obligations.UnpackChecksNothingElse : Prop :=
  ∀ (h body : Bytes) (s t : State) (r : DecodedRecord), Replies (.hdrDec h) s .ok (.fields r) →
    Replies (.unpack (h ++ body ++ beBytes 4 (crc32 body).toNat)) t .ok (.unpacked r body)

/-- R185: a packet that PACK_NEXT gives is accepted by UNPACK in any state. The body comes back bit for
bit (the message, or the index and the chunk), `snd_seq` is the counter value taken, and the other
fields are the stream's record, but for the version and the flags, which come back as R132 says. -/
def Obligations.EmittedPacketsUnpack : Prop :=
  ∀ (s t u : State) (ctx : Context) (p : Bytes), s.slot? s.issuer = some (.active ctx) →
    Answers .packNext s t .ok (.packet p) →
    ∃ (R : FullRecord) (r : DecodedRecord) (b : Bytes),
      { ctx.hdr with sndSeq := some s.seq.toNat } = R.toPartial ∧
      Replies (.unpack p) u .ok (.unpacked r b) ∧ R.comesBackAs r ∧ p.length = 44 + b.length ∧
      (ctx.mode = .single → b = ctx.body) ∧
      (ctx.mode = .frag → b = beBytes 4 ctx.index ++
        slice ctx.body ctx.offset (min (ctx.offset + 1024) ctx.body.length))
end

