-- ==== Sys2Proof/Laws/Bytes.lean ====
section
/-! SUPPORT. Lengths and bounds of byte sequences, and the arithmetic of the two packed bytes. -/

namespace Sys2Proof

@[simp] theorem beBytes_length (n v : Nat) : (beBytes n v).length = n := by
  induction n with
  | zero => rfl
  | succ n ih => simp [beBytes, ih]

/-- A big-endian byte sequence denotes a number below `2^(8*n)`. -/
theorem fromBE_lt (d : Bytes) : fromBE d < 2 ^ (8 * d.length) := by
  induction d with
  | nil => simp [fromBE]
  | cons b d ih =>
    have hb : b.toNat < 256 := b.isLt
    have hp : 2 ^ (8 * (d.length + 1)) = 256 * 2 ^ (8 * d.length) := by
      rw [Nat.mul_add, Nat.pow_add]; omega
    simp only [fromBE, List.length_cons]
    rw [hp]
    have hm : (b.toNat + 1) * 2 ^ (8 * d.length) ≤ 256 * 2 ^ (8 * d.length) :=
      Nat.mul_le_mul_right _ (by omega)
    rw [Nat.succ_mul] at hm
    exact lt_of_lt_of_le (Nat.add_lt_add_left ih _) hm

/-- The number a concatenation denotes. -/
theorem fromBE_append (a b : Bytes) : fromBE (a ++ b) = fromBE a * 2 ^ (8 * b.length) + fromBE b := by
  induction a with
  | nil => simp [fromBE]
  | cons x a ih =>
    simp only [List.cons_append, fromBE, ih, List.length_append]
    rw [Nat.mul_add, Nat.pow_add, Nat.add_mul, Nat.mul_assoc]
    omega

theorem slice_length (d : Bytes) (i j : Nat) : (slice d i j).length = min (j - i) (d.length - i) := by
  simp [slice]

/-- The part of a concatenation that lies before its second half. -/
theorem slice_append_left (a b : Bytes) (i j : Nat) (h : j ≤ a.length) :
    slice (a ++ b) i j = slice a i j := by
  simp only [slice]
  by_cases hi : i ≤ a.length
  · rw [List.drop_append_of_le_length hi, List.take_append_of_le_length]
    simp; omega
  · have : j - i = 0 := by omega
    simp [this]

/-- The part of a concatenation that lies after its first half. -/
theorem slice_append_right (a b : Bytes) (i j : Nat) (h : a.length ≤ i) :
    slice (a ++ b) i j = slice b (i - a.length) (j - a.length) := by
  simp only [slice, List.drop_append, List.drop_eq_nil_of_le h, List.nil_append]
  congr 1
  omega

theorem slice_all (d : Bytes) (n : Nat) (h : n = d.length) : slice d 0 n = d := by
  subst h; simp [slice]

@[simp] theorem flipBit_length (d : Bytes) (i k : Nat) : (flipBit d i k).length = d.length := by
  simp [flipBit]

end Sys2Proof
end

