-- ==== Sys2Proof/Laws/Checksum.lean ====
section
/-! SUPPORT. The CRC register over lists of bytes. -/

namespace Sys2Proof

@[simp] theorem crcRun_nil {w : Nat} (poly crc : BitVec w) : crcRun poly crc [] = crc := rfl

@[simp] theorem crcRun_cons {w : Nat} (poly crc : BitVec w) (b : Byte) (d : Bytes) :
    crcRun poly crc (b :: d) = crcRun poly (crcByte poly crc b) d := rfl

/-- The register after two sequences is the register after the second, started from the first. -/
theorem crcRun_append {w : Nat} (poly crc : BitVec w) (a b : Bytes) :
    crcRun poly crc (a ++ b) = crcRun poly (crcRun poly crc a) b := by
  simp [crcRun]

/-- One bit of the register, as a number. -/
theorem crcBit_toNat {w : Nat} (poly crc : BitVec w) :
    (crcBit poly crc).toNat = crcNatBit poly.toNat crc.toNat := by
  have h : crc.getLsbD 0 = decide (crc.toNat % 2 = 1) := by
    simp [BitVec.getLsbD, Nat.testBit_zero]
  unfold crcBit crcNatBit
  by_cases hb : crc.toNat % 2 = 1
  · simp [h, hb, Nat.shiftRight_eq_div_pow]
  · simp [h, hb, Nat.shiftRight_eq_div_pow]

end Sys2Proof
end

