-- ==== Sys2Proof/Laws/Decode.lean ====
section
/-! SUPPORT. The decoder's two halves: the byte, and the operands. -/

namespace Sys2Proof

/-- The byte decodes to an opcode exactly where it is the opcode's own. -/
theorem decodeByte_eq_some_iff (b : Byte) (o : Opcode) : decodeByte b = some o ↔ b = o.byte := by
  cases o <;> revert b <;> decide

@[simp] theorem decodeByte_byte (o : Opcode) : decodeByte o.byte = some o :=
  (decodeByte_eq_some_iff _ _).mpr rfl

/-- Operands bind to an instruction exactly where opcode and operands are the instruction's own. -/
theorem bindOperands_eq_ok_iff (o : Opcode) (v : Operands) (i : Instr) :
    bindOperands o v = .ok i ↔ o = i.opcode ∧ v = i.operands := by
  constructor
  · intro h
    cases o <;> cases v <;> simp [bindOperands] at h <;> subst h <;> exact ⟨rfl, rfl⟩
  · rintro ⟨rfl, rfl⟩
    cases i <;> rfl

/-- A legal byte is never answered IllegalCommand. -/
theorem bindOperands_ne_illegal (o : Opcode) (v : Operands) :
    bindOperands o v ≠ .error .illegalCommand := by
  cases o <;> cases v <;> simp [bindOperands]

/-- The operand list check of a command with an opcode's byte is what binding asks for. -/
theorem operandsFit_byte_iff (o : Opcode) (v : Operands) :
    Command.operandsFit ⟨o.byte, v⟩ = true ↔ bindOperands o v ≠ .error .operandMismatch := by
  cases o <;> cases v <;> simp [Command.operandsFit, Opcode.byte, bindOperands]

/-- The two checks of a command byte together are the byte decoder's. -/
theorem byte_checks_iff (b : Byte) (v : Operands) :
    (Command.rsvZero ⟨b, v⟩ = true ∧ Command.opLegal ⟨b, v⟩ = true) ↔ (decodeByte b).isSome := by
  have h : ∀ b : Byte, ((b.extractLsb' 4 4 == 0#4) = true ∧
      (1 ≤ (b.extractLsb' 0 4).toNat && (b.extractLsb' 0 4).toNat ≤ 12) = true) ↔
      (decodeByte b).isSome := by decide
  exact h b

end Sys2Proof
end

