-- ==== Sys2Proof/Laws/Header.lean ====
section
/-! SUPPORT. What the checks of an encode let through, and the lengths of headers and packets. -/

namespace Sys2Proof

open Machine (Status)

@[simp] theorem present_some {α : Type} (x : HeaderField) (v : α) : present x (some v) = .ok v := rfl
@[simp] theorem present_none {α : Type} (x : HeaderField) :
    present x (none : Option α) = .error (.missingField x.index) := rfl

/-- A record with all thirteen fields is complete. -/
@[simp] theorem complete_toPartial (R : FullRecord) : R.toPartial.complete = .ok R := rfl

/-- A value is present only if the field is. -/
theorem present_eq_ok {α : Type} {x : HeaderField} {o : Option α} {v : α} (h : present x o = .ok v) :
    o = some v := by
  cases o with
  | none => cases h
  | some w => cases h; rfl

/-- The only way out of a bind of the presence check with a value. -/
theorem present_bind_eq_ok {α β : Type} {x : HeaderField} {o : Option α}
    {k : α → Except Status β} {r : β} (h : (present x o >>= k) = .ok r) :
    ∃ v, o = some v ∧ k v = .ok r := by
  cases o with
  | none => cases h
  | some w => exact ⟨w, rfl, h⟩

/-- A complete record is the input record of its thirteen values. -/
theorem complete_eq_ok {F : PartialRecord} {R : FullRecord} (h : F.complete = .ok R) :
    F = R.toPartial := by
  unfold PartialRecord.complete at h
  obtain ⟨v0, h0, g0⟩ := present_bind_eq_ok h
  obtain ⟨v1, h1, g1⟩ := present_bind_eq_ok g0
  obtain ⟨v2, h2, g2⟩ := present_bind_eq_ok g1
  obtain ⟨v3, h3, g3⟩ := present_bind_eq_ok g2
  obtain ⟨v4, h4, g4⟩ := present_bind_eq_ok g3
  obtain ⟨v5, h5, g5⟩ := present_bind_eq_ok g4
  obtain ⟨v6, h6, g6⟩ := present_bind_eq_ok g5
  obtain ⟨v7, h7, g7⟩ := present_bind_eq_ok g6
  obtain ⟨v8, h8, g8⟩ := present_bind_eq_ok g7
  obtain ⟨v9, h9, g9⟩ := present_bind_eq_ok g8
  obtain ⟨v10, h10, g10⟩ := present_bind_eq_ok g9
  obtain ⟨v11, h11, g11⟩ := present_bind_eq_ok g10
  obtain ⟨v12, h12, g12⟩ := present_bind_eq_ok g11
  cases g12
  cases F
  simp_all only [FullRecord.toPartial]

/-- The range check of one field is its `fitsField`, turned round. -/
theorem outOfRange_eq_false_iff (R : FullRecord) (x : HeaderField) :
    R.outOfRange x = false ↔ R.fitsField x := by
  cases x <;> simp [FullRecord.outOfRange, FullRecord.fitsField, FullRecord.plain, maxMajor]

/-- `check(F)` lets through exactly the records that are complete and fit (R127). -/
theorem checkRecord_eq_ok_iff (F : PartialRecord) (R : FullRecord) :
    checkRecord F = .ok R ↔ F = R.toPartial ∧ R.fits := by
  constructor
  · intro h
    cases hc : F.complete with
    | error e => simp [checkRecord, hc, bind, Except.bind] at h
    | ok R' =>
      cases hf : HeaderField.all.find? R'.outOfRange with
      | some x => simp [checkRecord, hc, hf, bind, Except.bind] at h
      | none =>
        simp only [checkRecord, hc, hf, bind, Except.bind, pure, Except.pure] at h
        cases h
        refine ⟨complete_eq_ok hc, fun x => (outOfRange_eq_false_iff R x).mp ?_⟩
        have := List.find?_eq_none.mp hf x (by cases x <;> simp [HeaderField.all])
        simpa using this
  · rintro ⟨rfl, hR⟩
    have hf : HeaderField.all.find? R.outOfRange = none := by
      refine List.find?_eq_none.mpr fun x _ => ?_
      simp [(outOfRange_eq_false_iff R x).mpr (hR x)]
    simp [checkRecord, hf, bind, Except.bind, pure, Except.pure]

/-- HDR_ENC's value is a header exactly where the check lets a record through. -/
theorem hdrEncode_eq_ok_iff (F : PartialRecord) (h : Bytes) :
    hdrEncode F = .ok h ↔ ∃ R : FullRecord, F = R.toPartial ∧ R.fits ∧ h = encodeHeader R := by
  constructor
  · intro hh
    cases hc : checkRecord F with
    | error e => simp [hdrEncode, hc, bind, Except.bind] at hh
    | ok R =>
      simp only [hdrEncode, hc, bind, Except.bind, pure, Except.pure] at hh
      cases hh
      obtain ⟨h1, h2⟩ := (checkRecord_eq_ok_iff F R).mp hc
      exact ⟨R, h1, h2, rfl⟩
  · rintro ⟨R, hF, hR, rfl⟩
    simp [hdrEncode, (checkRecord_eq_ok_iff F R).mpr ⟨hF, hR⟩, bind, Except.bind, pure, Except.pure]

/-- The presence check fails only with MissingField. -/
theorem present_bind_eq_error {α β : Type} {x : HeaderField} {o : Option α} {k : α → Except Status β}
    {st : Status} (h : (present x o >>= k) = .error st) :
    st = .missingField x.index ∨ ∃ v, o = some v ∧ k v = .error st := by
  cases o with
  | none => cases h; exact .inl rfl
  | some w => exact .inr ⟨w, rfl, h⟩

/-- An incomplete record is answered MissingField. -/
theorem complete_eq_error {F : PartialRecord} {st : Status} (h : F.complete = .error st) :
    ∃ x : HeaderField, st = .missingField x.index := by
  unfold PartialRecord.complete at h
  obtain h0 | ⟨v0, h0, g0⟩ := present_bind_eq_error h
  · exact ⟨_, h0⟩
  obtain h1 | ⟨v1, h1, g1⟩ := present_bind_eq_error g0
  · exact ⟨_, h1⟩
  obtain h2 | ⟨v2, h2, g2⟩ := present_bind_eq_error g1
  · exact ⟨_, h2⟩
  obtain h3 | ⟨v3, h3, g3⟩ := present_bind_eq_error g2
  · exact ⟨_, h3⟩
  obtain h4 | ⟨v4, h4, g4⟩ := present_bind_eq_error g3
  · exact ⟨_, h4⟩
  obtain h5 | ⟨v5, h5, g5⟩ := present_bind_eq_error g4
  · exact ⟨_, h5⟩
  obtain h6 | ⟨v6, h6, g6⟩ := present_bind_eq_error g5
  · exact ⟨_, h6⟩
  obtain h7 | ⟨v7, h7, g7⟩ := present_bind_eq_error g6
  · exact ⟨_, h7⟩
  obtain h8 | ⟨v8, h8, g8⟩ := present_bind_eq_error g7
  · exact ⟨_, h8⟩
  obtain h9 | ⟨v9, h9, g9⟩ := present_bind_eq_error g8
  · exact ⟨_, h9⟩
  obtain h10 | ⟨v10, h10, g10⟩ := present_bind_eq_error g9
  · exact ⟨_, h10⟩
  obtain h11 | ⟨v11, h11, g11⟩ := present_bind_eq_error g10
  · exact ⟨_, h11⟩
  obtain h12 | ⟨v12, h12, g12⟩ := present_bind_eq_error g11
  · exact ⟨_, h12⟩
  cases g12

/-- HDR_ENC's value fails only with MissingField or FieldRange of a header field (R127). -/
theorem hdrEncode_eq_error {F : PartialRecord} {st : Status} (h : hdrEncode F = .error st) :
    ∃ x : HeaderField, st = .missingField x.index ∨ st = .fieldRange x.index := by
  cases hc : F.complete with
  | error e =>
    simp only [hdrEncode, checkRecord, hc, bind, Except.bind] at h
    cases h
    obtain ⟨x, hx⟩ := complete_eq_error hc
    exact ⟨x, .inl hx⟩
  | ok R =>
    cases hf : HeaderField.all.find? R.outOfRange with
    | some x =>
      simp only [hdrEncode, checkRecord, hc, hf, bind, Except.bind] at h
      cases h
      exact ⟨x, .inr rfl⟩
    | none =>
      simp only [hdrEncode, checkRecord, hc, hf, bind, Except.bind, pure, Except.pure] at h
      cases h

@[simp] theorem header38_length (R : FullRecord) : (header38 R).length = 38 := by
  simp [header38]

@[simp] theorem encodeHeader_length (R : FullRecord) : (encodeHeader R).length = 40 := by
  simp [encodeHeader]

/-- The length of a packet: header, body and four bytes. -/
theorem framePacket_length (h b : Bytes) :
    (Machine.framePacket h b).length = h.length + b.length + 4 := by
  simp [Machine.framePacket, Config.footerLen, Nat.add_assoc]

/-- Overrides win, the defaults fill in (R11). -/
@[simp] theorem override_sndSeq (A B : PartialRecord) :
    (A.override B).sndSeq = B.sndSeq.or A.sndSeq := rfl
@[simp] theorem override_lenBody (A B : PartialRecord) :
    (A.override B).lenBody = B.lenBody.or A.lenBody := rfl
@[simp] theorem override_time (A B : PartialRecord) :
    (A.override B).time = B.time.or A.time := rfl

end Sys2Proof
end

