-- ==== Sys2Proof/Laws/State.lean ====
section
/-! SUPPORT. One lemma for each field of State and each update of it, and the laws of the slots. -/

namespace Sys2Proof.Machine

/-! ### `State.setSlot` -/

@[simp] theorem State.setSlot_seq (s : State) (c : Nat) (v : Slot) : (s.setSlot c v).seq = s.seq := rfl
@[simp] theorem State.setSlot_slots (s : State) (c : Nat) (v : Slot) : (s.setSlot c v).slots = s.slots.set c v := rfl
@[simp] theorem State.setSlot_params (s : State) (c : Nat) (v : Slot) : (s.setSlot c v).params = s.params := rfl
@[simp] theorem State.setSlot_issuer (s : State) (c : Nat) (v : Slot) : (s.setSlot c v).issuer = s.issuer := rfl
@[simp] theorem State.setSlot_inbox (s : State) (c : Nat) (v : Slot) : (s.setSlot c v).inbox = s.inbox := rfl
@[simp] theorem State.setSlot_outbox (s : State) (c : Nat) (v : Slot) : (s.setSlot c v).outbox = s.outbox := rfl

/-! ### `State.advanceSeq` -/

@[simp] theorem State.advanceSeq_seq (s : State) : s.advanceSeq.seq = s.seq + 1 := rfl
@[simp] theorem State.advanceSeq_slots (s : State) : s.advanceSeq.slots = s.slots := rfl
@[simp] theorem State.advanceSeq_params (s : State) : s.advanceSeq.params = s.params := rfl
@[simp] theorem State.advanceSeq_issuer (s : State) : s.advanceSeq.issuer = s.issuer := rfl
@[simp] theorem State.advanceSeq_inbox (s : State) : s.advanceSeq.inbox = s.inbox := rfl
@[simp] theorem State.advanceSeq_outbox (s : State) : s.advanceSeq.outbox = s.outbox := rfl

/-! ### `State.resetBlock` -/

@[simp] theorem State.resetBlock_seq (s : State) : s.resetBlock.seq = 0 := rfl
@[simp] theorem State.resetBlock_slots (s : State) : s.resetBlock.slots = List.replicate s.nClients .idle := rfl
@[simp] theorem State.resetBlock_params (s : State) : s.resetBlock.params = s.params := rfl
@[simp] theorem State.resetBlock_issuer (s : State) : s.resetBlock.issuer = s.issuer := rfl
@[simp] theorem State.resetBlock_inbox (s : State) : s.resetBlock.inbox = s.inbox := rfl
@[simp] theorem State.resetBlock_outbox (s : State) : s.resetBlock.outbox = s.outbox := rfl

/-! ### `State.respond` -/

@[simp] theorem State.respond_seq (s : State) (st : Status) (r : Result) : (s.respond st r).seq = s.seq := rfl
@[simp] theorem State.respond_slots (s : State) (st : Status) (r : Result) : (s.respond st r).slots = s.slots := rfl
@[simp] theorem State.respond_params (s : State) (st : Status) (r : Result) : (s.respond st r).params = s.params := rfl
@[simp] theorem State.respond_issuer (s : State) (st : Status) (r : Result) : (s.respond st r).issuer = s.issuer := rfl
@[simp] theorem State.respond_inbox (s : State) (st : Status) (r : Result) : (s.respond st r).inbox = s.inbox := rfl
@[simp] theorem State.respond_outbox (s : State) (st : Status) (r : Result) : (s.respond st r).outbox = s.outbox ++ [⟨s.issuer, st, r⟩] := rfl

/-! ### `State.raise` -/

@[simp] theorem State.raise_seq (s : State) (st : Status) : (s.raise st).seq = s.seq := rfl
@[simp] theorem State.raise_slots (s : State) (st : Status) : (s.raise st).slots = s.slots := rfl
@[simp] theorem State.raise_params (s : State) (st : Status) : (s.raise st).params = s.params := rfl
@[simp] theorem State.raise_issuer (s : State) (st : Status) : (s.raise st).issuer = s.issuer := rfl
@[simp] theorem State.raise_inbox (s : State) (st : Status) : (s.raise st).inbox = s.inbox := rfl
@[simp] theorem State.raise_outbox (s : State) (st : Status) : (s.raise st).outbox = s.outbox ++ [⟨s.issuer, st, .none⟩] := rfl

/-! ### `State.popEvent` -/

@[simp] theorem State.popEvent_seq (s : State) : s.popEvent.seq = s.seq := rfl
@[simp] theorem State.popEvent_slots (s : State) : s.popEvent.slots = s.slots := rfl
@[simp] theorem State.popEvent_params (s : State) : s.popEvent.params = s.params := rfl
@[simp] theorem State.popEvent_issuer (s : State) : s.popEvent.issuer = s.issuer := rfl
@[simp] theorem State.popEvent_inbox (s : State) : s.popEvent.inbox = s.inbox.tail := rfl
@[simp] theorem State.popEvent_outbox (s : State) : s.popEvent.outbox = s.outbox := rfl

/-! ### `State.accept` -/

@[simp] theorem State.accept_seq (s : State) (c : Nat) : (s.accept c).seq = s.seq := rfl
@[simp] theorem State.accept_slots (s : State) (c : Nat) : (s.accept c).slots = s.slots := rfl
@[simp] theorem State.accept_params (s : State) (c : Nat) : (s.accept c).params = s.params := rfl
@[simp] theorem State.accept_issuer (s : State) (c : Nat) : (s.accept c).issuer = c := rfl
@[simp] theorem State.accept_inbox (s : State) (c : Nat) : (s.accept c).inbox = s.inbox.tail := rfl
@[simp] theorem State.accept_outbox (s : State) (c : Nat) : (s.accept c).outbox = s.outbox := rfl

/-! ### `State.pushEvent` -/

@[simp] theorem State.pushEvent_seq (s : State) (e : Event) : (s.pushEvent e).seq = s.seq := rfl
@[simp] theorem State.pushEvent_slots (s : State) (e : Event) : (s.pushEvent e).slots = s.slots := rfl
@[simp] theorem State.pushEvent_params (s : State) (e : Event) : (s.pushEvent e).params = s.params := rfl
@[simp] theorem State.pushEvent_issuer (s : State) (e : Event) : (s.pushEvent e).issuer = s.issuer := rfl
@[simp] theorem State.pushEvent_inbox (s : State) (e : Event) : (s.pushEvent e).inbox = e :: s.inbox := rfl
@[simp] theorem State.pushEvent_outbox (s : State) (e : Event) : (s.pushEvent e).outbox = s.outbox := rfl

/-! ### Answers and slots -/

@[simp] theorem State.answer_ok (s : State) (v : Result) : s.answer (.ok v) = s.respond .ok v := rfl
@[simp] theorem State.answer_error (s : State) (st : Status) :
    s.answer (.error st) = s.raise st := rfl

/-- An answer adds one response of the issuer and changes nothing else. -/
theorem State.answer_eq (s : State) (r : Except Status Result) :
    ∃ st v, s.answer r = s.respond st v := by
  cases r with
  | ok v => exact ⟨_, _, rfl⟩
  | error st => exact ⟨_, _, rfl⟩

@[simp] theorem State.nClients_setSlot (s : State) (c : Nat) (v : Slot) :
    (s.setSlot c v).nClients = s.nClients := by
  simp [State.nClients]

@[simp] theorem State.nClients_resetBlock (s : State) : s.resetBlock.nClients = s.nClients := by
  simp [State.nClients]

theorem State.slot?_setSlot_same (s : State) (c : Nat) (v : Slot) (h : c < s.nClients) :
    (s.setSlot c v).slot? c = some v := by
  simp only [State.nClients] at h
  simp [State.slot?, h]

theorem State.slot?_setSlot_other (s : State) (c d : Nat) (v : Slot) (h : c ≠ d) :
    (s.setSlot c v).slot? d = s.slot? d := by
  simp [State.slot?, List.getElem?_set_ne h]

theorem State.slot?_isSome_iff (s : State) (c : Nat) : (s.slot? c).isSome ↔ c < s.nClients := by
  simp [State.slot?, State.nClients]

theorem State.slot?_eq_none_iff (s : State) (c : Nat) : s.slot? c = none ↔ s.nClients ≤ c := by
  simp [State.slot?, State.nClients]

/-! ### The state after reset -/

@[simp] theorem State.reset_seq : State.reset.seq = 0 := rfl
@[simp] theorem State.reset_inbox : State.reset.inbox = [] := rfl
@[simp] theorem State.reset_outbox : State.reset.outbox = [] := rfl

@[simp] theorem State.reset_nClients : State.reset.nClients = Config.nClients := by
  simp [State.nClients, State.reset]

end Sys2Proof.Machine
end

