-- ==== Sys2Proof/Laws/Exec.lean ====
section
/-! SUPPORT. Once and for all: what performing an instruction, and a step, can do. -/

namespace Sys2Proof.Machine

/-- The nine pure commands answer, and do nothing else. -/
theorem exec_pure (i : Instr) (hi : i.isPure = true) :
    ∃ st r, ∀ s, exec i s = .next (s.respond st r) := by
  cases i with
  | seqNext => cases hi
  | packStart => cases hi
  | packNext => cases hi
  | crc16 d => exact ⟨_, _, fun _ => rfl⟩
  | crc32 d => exact ⟨_, _, fun _ => rfl⟩
  | verEnc major minor =>
    by_cases h : major > maxMajor
    · exact ⟨_, _, fun s => by simp only [exec, execVerEnc, h, if_true, State.raise]; rfl⟩
    · exact ⟨_, _, fun s => by simp only [exec, execVerEnc, h, if_false]; rfl⟩
  | verDec v => exact ⟨_, _, fun _ => rfl⟩
  | flgEnc a b f => exact ⟨_, _, fun _ => rfl⟩
  | flgDec x => exact ⟨_, _, fun _ => rfl⟩
  | hdrEnc F =>
    cases h : hdrEncode F with
    | ok v => exact ⟨_, _, fun s => by simp only [exec, execHdrEnc, h, Except.map, State.answer]; rfl⟩
    | error e => exact ⟨_, _, fun s => by simp only [exec, execHdrEnc, h, Except.map, State.answer, State.raise]; rfl⟩
  | hdrDec d =>
    cases h : hdrDecode d with
    | ok v => exact ⟨_, _, fun s => by simp only [exec, execHdrDec, h, Except.map, State.answer]; rfl⟩
    | error e => exact ⟨_, _, fun s => by simp only [exec, execHdrDec, h, Except.map, State.answer, State.raise]; rfl⟩
  | unpack p =>
    cases h : unpackPacket p with
    | ok v => exact ⟨_, _, fun s => by simp only [exec, execUnpack, h, Except.map, State.answer]; rfl⟩
    | error e => exact ⟨_, _, fun s => by simp only [exec, execUnpack, h, Except.map, State.answer, State.raise]; rfl⟩

/-- PACK_NEXT, case by case on the issuer's slot (R175): a missing slot, IDLE, DONE, an exhausted
stream, a failing emission, a packet. -/
theorem execPackNext_cases (s : State) :
    (s.slot? s.issuer = none ∧ execPackNext s = .fault .noSuchClient) ∨
    (s.slot? s.issuer = some .idle ∧ execPackNext s = .next (s.raise .noStream)) ∨
    (s.slot? s.issuer = some .done ∧ execPackNext s = .next (s.respond .endOfStream .none)) ∨
    (∃ ctx, s.slot? s.issuer = some (.active ctx) ∧ ctx.exhausted = true ∧
      execPackNext s = .next ((s.setSlot s.issuer .done).respond .endOfStream .none)) ∨
    (∃ ctx st, s.slot? s.issuer = some (.active ctx) ∧ ctx.exhausted = false ∧
      emitPacket ctx s.seq = .error st ∧
      execPackNext s = .next ((s.advanceSeq.setSlot s.issuer .done).raise st)) ∨
    (∃ ctx p ctx', s.slot? s.issuer = some (.active ctx) ∧ ctx.exhausted = false ∧
      emitPacket ctx s.seq = .ok (p, ctx') ∧
      execPackNext s =
        .next ((s.advanceSeq.setSlot s.issuer (.active ctx')).respond .ok (.packet p))) := by
  cases hs : s.slot? s.issuer with
  | none => exact .inl ⟨rfl, by simp [execPackNext, hs]⟩
  | some v =>
    cases v with
    | idle => exact .inr (.inl ⟨rfl, by simp [execPackNext, hs]⟩)
    | done => exact .inr (.inr (.inl ⟨rfl, by simp [execPackNext, hs]⟩))
    | active ctx =>
      cases he : ctx.exhausted with
      | true => exact .inr (.inr (.inr (.inl ⟨ctx, rfl, he, by simp [execPackNext, hs, he]⟩)))
      | false =>
        cases hp : emitPacket ctx s.seq with
        | error st =>
          exact .inr (.inr (.inr (.inr (.inl ⟨ctx, st, rfl, he, hp, by simp [execPackNext, hs, he, hp]⟩))))
        | ok q =>
          exact .inr (.inr (.inr (.inr (.inr
            ⟨ctx, q.1, q.2, rfl, he, hp, by simp [execPackNext, hs, he, hp]⟩))))

/-- The body of a fragment exists where its index fits 4 bytes (R177). -/
theorem fragBody_eq_ok {ctx : Context} {b : Bytes} (h : fragBody ctx = .ok b) :
    ctx.index < 2 ^ 32 ∧ b = beBytes 4 ctx.index ++ ctx.chunk := by
  unfold fragBody at h
  split at h
  · cases h
  · rename_i hk
    cases h
    exact ⟨Nat.lt_of_not_le hk, rfl⟩

/-- What an emission gives where it succeeds: a header, framed with the mode's body (R175 to R177). -/
theorem emitPacket_eq_ok {ctx ctx' : Context} {seq : BitVec 24} {p : Bytes}
    (h : emitPacket ctx seq = .ok (p, ctx')) :
    ∃ hd, emitHeader ctx seq = .ok hd ∧
      ((ctx.mode = .single ∧ p = framePacket hd ctx.body ∧ ctx' = { ctx with index := 1 }) ∨
       (ctx.mode = .frag ∧ ctx.index < 2 ^ 32 ∧ p = framePacket hd (beBytes 4 ctx.index ++ ctx.chunk) ∧
        ctx' = { ctx with index := ctx.index + 1, offset := ctx.offset + 1024 })) := by
  cases hh : emitHeader ctx seq with
  | error e => simp [emitPacket, hh, bind, Except.bind] at h
  | ok hd =>
    refine ⟨hd, rfl, ?_⟩
    cases hm : ctx.mode with
    | single =>
      simp only [emitPacket, hh, bind, Except.bind, Context.packet, hm] at h
      cases h
      exact .inl ⟨rfl, rfl, rfl⟩
    | frag =>
      cases hb : fragBody ctx with
      | error e =>
        simp only [emitPacket, hh, bind, Except.bind, Context.packet, hm, hb] at h
        cases h
      | ok b =>
        simp only [emitPacket, hh, bind, Except.bind, Context.packet, hm, hb] at h
        cases h
        obtain ⟨hk, rfl⟩ := fragBody_eq_ok hb
        exact .inr ⟨rfl, hk, rfl, rfl⟩

/-- An emission fails only with MissingField, or FieldRange of a header field or of the fragment index
(R176, R177). -/
theorem emitPacket_eq_error {ctx : Context} {seq : BitVec 24} {st : Status}
    (h : emitPacket ctx seq = .error st) :
    ∃ k, st = .missingField k ∨ st = .fieldRange k := by
  cases hh : emitHeader ctx seq with
  | error e =>
    simp only [emitPacket, hh, bind, Except.bind] at h
    cases h
    obtain ⟨x, hx⟩ := hdrEncode_eq_error hh
    exact ⟨x.index, hx⟩
  | ok hd =>
    cases hm : ctx.mode with
    | single =>
      simp only [emitPacket, hh, bind, Except.bind, Context.packet, hm] at h
      cases h
    | frag =>
      cases hb : fragBody ctx with
      | error e =>
        simp only [emitPacket, hh, bind, Except.bind, Context.packet, hm, hb] at h
        cases h
        unfold fragBody at hb
        split at hb
        · cases hb; exact ⟨_, .inr rfl⟩
        · cases hb
      | ok b =>
        simp only [emitPacket, hh, bind, Except.bind, pure, Except.pure, Context.packet, hm, hb] at h
        cases h

/-- Every instruction completes for an issuer that has a slot. -/
theorem exec_completes (i : Instr) (s : State) (h : s.issuer < s.nClients) :
    ∃ t, exec i s = .next t := by
  by_cases hi : i.isPure = true
  · obtain ⟨st, r, hr⟩ := exec_pure i hi
    exact ⟨_, hr s⟩
  · have hs := (State.slot?_isSome_iff s s.issuer).mpr h
    cases i with
    | packStart ov body now =>
      cases h2 : s.slot? s.issuer with
      | none => simp [h2] at hs
      | some v => exact ⟨_, by simp only [exec, execPackStart, h2]; rfl⟩
    | packNext =>
      rcases execPackNext_cases s with ⟨h1, _⟩ | ⟨_, h2⟩ | ⟨_, h2⟩ | ⟨_, _, _, h2⟩ |
        ⟨_, _, _, _, _, h2⟩ | ⟨_, _, _, _, _, _, h2⟩
      · simp [h1] at hs
      all_goals exact ⟨_, h2⟩
    | seqNext => exact ⟨_, rfl⟩
    | crc16 | crc32 | verEnc | verDec | flgEnc | flgDec | hdrEnc | hdrDec | unpack => exact absurd rfl hi

/-- Every way an instruction can complete: a pure answer, the counter, an opened stream, or one of
PACK_NEXT's four next states. -/
theorem exec_next_cases {i : Instr} {s t : State} (h : exec i s = .next t) :
    (i.isPure = true ∧ ∃ st r, t = s.respond st r) ∨
    (i = .seqNext ∧ t = s.advanceSeq.respond .ok (.nat32 (s.seq.setWidth 32))) ∨
    (∃ ov body now v, i = .packStart ov body now ∧ s.slot? s.issuer = some v ∧
      t = (s.setSlot s.issuer (.active (openContext s.params ov body now))).respond .ok .none) ∨
    (i = .packNext ∧
      ((s.slot? s.issuer = some .idle ∧ t = s.raise .noStream) ∨
       (s.slot? s.issuer = some .done ∧ t = s.respond .endOfStream .none) ∨
       (∃ ctx, s.slot? s.issuer = some (.active ctx) ∧ ctx.exhausted = true ∧
         t = (s.setSlot s.issuer .done).respond .endOfStream .none) ∨
       (∃ ctx st, s.slot? s.issuer = some (.active ctx) ∧ ctx.exhausted = false ∧
         emitPacket ctx s.seq = .error st ∧ t = (s.advanceSeq.setSlot s.issuer .done).raise st) ∨
       (∃ ctx p ctx', s.slot? s.issuer = some (.active ctx) ∧ ctx.exhausted = false ∧
         emitPacket ctx s.seq = .ok (p, ctx') ∧
         t = (s.advanceSeq.setSlot s.issuer (.active ctx')).respond .ok (.packet p)))) := by
  by_cases hi : i.isPure = true
  · obtain ⟨st, r, hr⟩ := exec_pure i hi
    rw [hr s] at h
    cases h
    exact .inl ⟨hi, st, r, rfl⟩
  · cases i with
    | crc16 | crc32 | verEnc | verDec | flgEnc | flgDec | hdrEnc | hdrDec | unpack => exact absurd rfl hi
    | seqNext => cases h; exact .inr (.inl ⟨rfl, rfl⟩)
    | packStart ov body now =>
      cases hs : s.slot? s.issuer with
      | none => simp [exec, execPackStart, hs] at h
      | some v =>
        simp only [exec, execPackStart, hs] at h
        cases h
        exact .inr (.inr (.inl ⟨ov, body, now, v, rfl, rfl, rfl⟩))
    | packNext =>
      refine .inr (.inr (.inr ⟨rfl, ?_⟩))
      simp only [exec] at h
      rcases execPackNext_cases s with ⟨_, he⟩ | ⟨hs, he⟩ | ⟨hs, he⟩ | ⟨ctx, hs, hx, he⟩ |
        ⟨ctx, st, hs, hx, hp, he⟩ | ⟨ctx, p, ctx', hs, hx, hp, he⟩
      · rw [he] at h; cases h
      · rw [he] at h; cases h; exact .inl ⟨hs, rfl⟩
      · rw [he] at h; cases h; exact .inr (.inl ⟨hs, rfl⟩)
      · rw [he] at h; cases h; exact .inr (.inr (.inl ⟨ctx, hs, hx, rfl⟩))
      · rw [he] at h; cases h; exact .inr (.inr (.inr (.inl ⟨ctx, st, hs, hx, hp, rfl⟩)))
      · rw [he] at h; cases h; exact .inr (.inr (.inr (.inr ⟨ctx, p, ctx', hs, hx, hp, rfl⟩)))

/-- Every way a step can go on: no event, a reset, a reserved byte, or an instruction (R6, R62, R241). -/
theorem step_next_cases {s t : State} (h : step s = .next t) :
    (s.inbox = [] ∧ t = s) ∨
    (∃ es, s.inbox = .reset :: es ∧ t = s.popEvent.resetBlock) ∨
    (∃ r es, s.inbox = .command r :: es ∧ r.client < s.nClients ∧
      decode r.command = .error .illegalCommand ∧ t = (s.accept r.client).raise .illegalCommand) ∨
    (∃ r es i, s.inbox = .command r :: es ∧ r.client < s.nClients ∧ decode r.command = .ok i ∧
      exec i (s.accept r.client) = .next t) := by
  cases hb : s.inbox with
  | nil =>
    simp only [step, hb] at h
    cases h
    exact .inl ⟨rfl, rfl⟩
  | cons e es =>
    cases e with
    | reset =>
      simp only [step, hb] at h
      cases h
      exact .inr (.inl ⟨es, rfl, rfl⟩)
    | command r =>
      simp only [step, hb, perform] at h
      by_cases hc : r.client < s.nClients
      · simp only [hc, if_true] at h
        cases hd : decode r.command with
        | ok i =>
          simp only [hd] at h
          exact .inr (.inr (.inr ⟨r, es, i, rfl, hc, hd, h⟩))
        | error e =>
          cases e with
          | illegalCommand =>
            simp only [hd] at h
            cases h
            exact .inr (.inr (.inl ⟨r, es, rfl, hc, hd, rfl⟩))
          | operandMismatch => simp only [hd] at h; cases h
      · simp only [hc, if_false] at h; cases h

/-! ### Responses of the codec commands, from the values they compute -/

theorem replies_hdrEnc {F : PartialRecord} {h : Bytes} (s : State) (e : hdrEncode F = .ok h) :
    Replies (.hdrEnc F) s .ok (.header h) := by
  simp only [Replies, exec, execHdrEnc, e, Except.map, State.answer, State.respond]

theorem replies_hdrEnc_error {F : PartialRecord} {st : Status} (s : State) (e : hdrEncode F = .error st) :
    Replies (.hdrEnc F) s st .none := by
  simp only [Replies, exec, execHdrEnc, e, Except.map, State.answer, State.raise, State.respond]

theorem replies_hdrDec {d : Bytes} {r : DecodedRecord} (s : State) (e : hdrDecode d = .ok r) :
    Replies (.hdrDec d) s .ok (.fields r) := by
  simp only [Replies, exec, execHdrDec, e, Except.map, State.answer, State.respond]

theorem replies_hdrDec_error {d : Bytes} {st : Status} (s : State) (e : hdrDecode d = .error st) :
    Replies (.hdrDec d) s st .none := by
  simp only [Replies, exec, execHdrDec, e, Except.map, State.answer, State.raise, State.respond]

theorem replies_unpack {p b : Bytes} {r : DecodedRecord} (s : State) (e : unpackPacket p = .ok (r, b)) :
    Replies (.unpack p) s .ok (.unpacked r b) := by
  simp only [Replies, exec, execUnpack, e, Except.map, State.answer, State.respond]

theorem replies_unpack_error {p : Bytes} {st : Status} (s : State) (e : unpackPacket p = .error st) :
    Replies (.unpack p) s st .none := by
  simp only [Replies, exec, execUnpack, e, Except.map, State.answer, State.raise, State.respond]

/-- Two responses of one execution are the same response. -/
theorem replies_unique {i : Instr} {s : State} {st st' : Status} {r r' : Result}
    (h : Replies i s st r) (h' : Replies i s st' r') : st = st' ∧ r = r' := by
  have e : (Host.Outcome.next { s with outbox := s.outbox ++ [⟨s.issuer, st, r⟩] } :
      Host.Outcome State Fault Refusal) =
      .next { s with outbox := s.outbox ++ [⟨s.issuer, st', r'⟩] } := by rw [← h, ← h']
  simp at e
  exact e

/-! ### PACK_ALL -/

/-- What one more pull of PACK_ALL does on an open stream: it ends with END, ends with the emission's
failure, or keeps the packet and goes on (R76). -/
theorem pullAll_cases {fuel : Nat} {got : List Bytes} {s : State} {ctx : Context} {res : PackAllResult}
    (hs : s.slot? s.issuer = some (.active ctx)) (h : pullAll (fuel + 1) got s = some res) :
    (ctx.exhausted = true ∧ res = ⟨got, .endOfStream, (s.setSlot s.issuer .done).respond .endOfStream .none⟩) ∨
    (∃ st, ctx.exhausted = false ∧ emitPacket ctx s.seq = .error st ∧
      res = ⟨got, st, (s.advanceSeq.setSlot s.issuer .done).raise st⟩) ∨
    (∃ p ctx', ctx.exhausted = false ∧ emitPacket ctx s.seq = .ok (p, ctx') ∧
      pullAll fuel (got ++ [p])
        ((s.advanceSeq.setSlot s.issuer (.active ctx')).respond .ok (.packet p)) = some res) := by
  cases he : ctx.exhausted with
  | true =>
    simp [pullAll, execPackNext, hs, he] at h
    exact .inl ⟨rfl, h.symm⟩
  | false =>
    cases hp : emitPacket ctx s.seq with
    | error st =>
      simp [pullAll, execPackNext, hs, he, hp] at h
      exact .inr (.inl ⟨st, rfl, rfl, h.symm⟩)
    | ok q =>
      simp [pullAll, execPackNext, hs, he, hp] at h
      exact .inr (.inr ⟨q.1, q.2, rfl, rfl, h⟩)

/-! ### Runs -/

/-- A run of one step more: the step, then the run from where it went. -/
theorem run_succ_of_next {k : Nat} {s t : State} (h : step s = .next t) :
    Host.Core.run core (k + 1) s = Host.Core.run core k t := by
  have e := Host.Core.run.eq_2 core s k
  rw [show core.step s = .next t from h] at e
  exact e

@[simp] theorem run_zero (s : State) : Host.Core.run core 0 s = .next s := Host.Core.run.eq_1 core s

end Sys2Proof.Machine
end

