-- ==== Sys2Proof/Laws/PerInstr.lean ====
section
/-! SUPPORT. Statements made once for each instruction. `EncodeWf`: the command that issues an
instruction is well formed (30_encoding.md R60 to R63). -/

namespace Sys2Proof.Laws.EncodeWf

/-- The encoding of an instruction has no reserved bit, a legal opcode, and the opcode's operands. -/
def Statement (i : Instr) : Prop := (encode i).wf = true

/-- The byte of an opcode has no reserved bit and a legal opcode, whatever travels with it. -/
theorem byte_legal (o : Opcode) (v : Operands) :
    Command.rsvZero ⟨o.byte, v⟩ = true ∧ Command.opLegal ⟨o.byte, v⟩ = true := by
  cases o <;> simp [Command.rsvZero, Command.opLegal, Opcode.byte]

/-- So an encoding is well formed as soon as its operand list is the opcode's. -/
theorem of_fit {i : Instr} (h : (encode i).operandsFit = true) : Statement i := by
  have hb := byte_legal i.opcode i.operands
  simp only [Statement, Command.wf, h, Bool.and_true]
  simp [encode, hb.1, hb.2]

theorem crc16 (data : Bytes) : Statement (.crc16 data) := of_fit (by simp [encode, Command.operandsFit, Instr.opcode, Instr.operands, Opcode.byte])
theorem crc32 (data : Bytes) : Statement (.crc32 data) := of_fit (by simp [encode, Command.operandsFit, Instr.opcode, Instr.operands, Opcode.byte])
theorem verEnc (major minor : Nat) : Statement (.verEnc major minor) := of_fit (by simp [encode, Command.operandsFit, Instr.opcode, Instr.operands, Opcode.byte])
theorem verDec (v : Byte) : Statement (.verDec v) := of_fit (by simp [encode, Command.operandsFit, Instr.opcode, Instr.operands, Opcode.byte])
theorem flgEnc (a b : Nat) (f : Bool) : Statement (.flgEnc a b f) := of_fit (by simp [encode, Command.operandsFit, Instr.opcode, Instr.operands, Opcode.byte])
theorem flgDec (x : Byte) : Statement (.flgDec x) := of_fit (by simp [encode, Command.operandsFit, Instr.opcode, Instr.operands, Opcode.byte])
theorem hdrEnc (fields : PartialRecord) : Statement (.hdrEnc fields) := of_fit (by simp [encode, Command.operandsFit, Instr.opcode, Instr.operands, Opcode.byte])
theorem hdrDec (data : Bytes) : Statement (.hdrDec data) := of_fit (by simp [encode, Command.operandsFit, Instr.opcode, Instr.operands, Opcode.byte])
theorem seqNext : Statement .seqNext := of_fit (by simp [encode, Command.operandsFit, Instr.opcode, Instr.operands, Opcode.byte])
theorem packStart (ov : PartialRecord) (body : Bytes) (now : Nat) :
    Statement (.packStart ov body now) := of_fit (by simp [encode, Command.operandsFit, Instr.opcode, Instr.operands, Opcode.byte])
theorem packNext : Statement .packNext := of_fit (by simp [encode, Command.operandsFit, Instr.opcode, Instr.operands, Opcode.byte])
theorem unpack (packet : Bytes) : Statement (.unpack packet) := of_fit (by simp [encode, Command.operandsFit, Instr.opcode, Instr.operands, Opcode.byte])

end Sys2Proof.Laws.EncodeWf
end

