-- ==== Sys2Proof/Machine/Assembler.lean ====
section
/-! DEFINITION. The textual form of commands (30_encoding.md R75) and the pseudo-command PACK_ALL in it
(R76): a transcriber from one line of text to what a client issues. It has no semantics of its own
(D36); the draw `now` is no part of the text (R171), so the transcriber is given it. -/

namespace Sys2Proof.Machine

/-- A token of a line. -/
inductive AsmToken
  | word (w : List Char)
  | num (n : Nat)
  | bytes (d : Bytes)
  | mark (c : Char)
deriving DecidableEq, Repr

/-- What a line issues: a command, or the pseudo-command PACK_ALL. -/
inductive AsmLine
  | command (client : Nat) (i : Instr)
  | packAll (client : Nat) (ov : PartialRecord) (body : Bytes) (now : Nat)
deriving DecidableEq, Repr

/-! ### Characters and numbers -/

/-- The opening brace of a record. -/
def openBrace : Char := Char.ofNat 0x7B

/-- The closing brace of a record. -/
def closeBrace : Char := Char.ofNat 0x7D

/-- A hex digit's value; letters of either case. -/
def hexValue (c : Char) : Option Nat :=
  if 48 ≤ c.toNat ∧ c.toNat ≤ 57 then some (c.toNat - 48)
  else if 65 ≤ c.toNat ∧ c.toNat ≤ 70 then some (c.toNat - 55)
  else if 97 ≤ c.toNat ∧ c.toNat ≤ 102 then some (c.toNat - 87)
  else none

/-- A decimal digit's value. -/
def decValue (c : Char) : Option Nat :=
  if 48 ≤ c.toNat ∧ c.toNat ≤ 57 then some (c.toNat - 48) else none

/-- A number of digits of a base, most significant first. -/
def digitsValue (base : Nat) (value : Char → Option Nat) : Nat → List Char → Option Nat
  | acc, [] => some acc
  | acc, c :: cs =>
    match value c with
    | some v => digitsValue base value (acc * base + v) cs
    | none => none

/-- "A natural is written in decimal or as `0x` hex" (R75). -/
def natOfWord : List Char → Option Nat
  | '0' :: 'x' :: c :: cs => digitsValue 16 hexValue 0 (c :: cs)
  | c :: cs => digitsValue 10 decValue 0 (c :: cs)
  | [] => none

/-- Two hex digits for each byte. -/
def hexPairs : List Char → Option Bytes
  | [] => some []
  | [_] => none
  | a :: b :: cs =>
    match hexValue a, hexValue b, hexPairs cs with
    | some x, some y, some d => some (BitVec.ofNat 8 (16 * x + y) :: d)
    | _, _, _ => none

/-- The bytes of `x"hex digits"`: "two hex digits per byte, big-endian reading order, spaces ignored". -/
def hexBytes (cs : List Char) : Option Bytes := hexPairs (cs.filter (· != ' '))

/-- The ASCII bytes of a text (R10); a character outside ASCII is none. -/
def asciiBytes (cs : List Char) : Option Bytes :=
  if cs.all (fun c => c.toNat < 128) then some (cs.map fun c => BitVec.ofNat 8 c.toNat) else none

/-- `zeros(n)`: `n` bytes of 0x00 (R75). -/
def zerosBytes (n : Nat) : Bytes := List.replicate n 0x00#8

/-- `ramp(n)`: `n` bytes with byte `i` = `i mod 256` (R75). -/
def rampBytes (n : Nat) : Bytes := (List.range n).map fun i => BitVec.ofNat 8 i

/-! ### Tokens -/

/-- A character of a name or a number. -/
def isWordChar (c : Char) : Bool :=
  (48 ≤ c.toNat && c.toNat ≤ 57) || (65 ≤ c.toNat && c.toNat ≤ 90) ||
    (97 ≤ c.toNat && c.toNat ≤ 122) || c == '_'

/-- The characters of a name or number at the front, and the rest. -/
def spanWord : List Char → List Char × List Char
  | [] => ([], [])
  | c :: cs => if isWordChar c then let (w, r) := spanWord cs; (c :: w, r) else ([], c :: cs)

/-- The characters up to the closing quote, and the rest; none where there is no closing quote. -/
def spanQuoted : List Char → Option (List Char × List Char)
  | [] => none
  | c :: cs => if c == '"' then some ([], cs) else (spanQuoted cs).map fun (w, r) => (c :: w, r)

/-- The marks of the syntax: colon, comma, parentheses, braces. -/
def isMark (c : Char) : Bool :=
  c == ':' || c == ',' || c == '(' || c == ')' || c == openBrace || c == closeBrace

/-- A name or a number. -/
def wordToken (w : List Char) : Option AsmToken :=
  match w with
  | [] => none
  | c :: _ => if (decValue c).isSome then (natOfWord w).map .num else some (.word w)

/-- The tokens of a line; a semicolon begins a comment (R75). `fuel` above the line's length is enough. -/
def tokens : Nat → List Char → Option (List AsmToken)
  | 0, _ => none
  | _ + 1, [] => some []
  | fuel + 1, c :: cs =>
    if c == ';' then some []
    else if c == ' ' then tokens fuel cs
    else if isMark c then (tokens fuel cs).map (.mark c :: ·)
    else if (c == 'b' || c == 'x') && cs.head? == some '"' then
      match spanQuoted cs.tail with
      | none => none
      | some (w, rest) =>
        match (if c == 'b' then asciiBytes w else hexBytes w), tokens fuel rest with
        | some d, some ts => some (.bytes d :: ts)
        | _, _ => none
    else
      let (w, rest) := spanWord (c :: cs)
      match wordToken w, tokens fuel rest with
      | some t, some ts => some (t :: ts)
      | _, _ => none

/-! ### Operands -/

/-- A byte-sequence operand, and the tokens after it (R75). -/
def bytesOperand : List AsmToken → Option (Bytes × List AsmToken)
  | .bytes d :: ts => some (d, ts)
  | .word w :: .mark '(' :: .num n :: .mark ')' :: ts =>
    if w = "zeros".toList then some (zerosBytes n, ts)
    else if w = "ramp".toList then some (rampBytes n, ts)
    else none
  | _ => none

/-- `true` or `false` (R75). -/
def boolOfWord (w : List Char) : Option Bool :=
  if w = "true".toList then some true else if w = "false".toList then some false else none

/-- The name of a field (R64). -/
def fieldName : HeaderField → List Char
  | .protVer => "prot_ver".toList
  | .flags => "flags".toList
  | .lenBody => "len_body".toList
  | .time => "time".toList
  | .msgMjType => "msg_mj_type".toList
  | .msgMiType => "msg_mi_type".toList
  | .extHeader => "ext_header".toList
  | .sUniqid => "s_uniqid".toList
  | .rUniqid => "r_uniqid".toList
  | .sndSession => "snd_session".toList
  | .respSession => "resp_session".toList
  | .sndSeq => "snd_seq".toList
  | .respSeq => "resp_seq".toList

/-- A record with one plain field set; `prot_ver` and `flags` have values of other types. -/
def setPlain (F : PartialRecord) (x : HeaderField) (v : Nat) : Option PartialRecord :=
  match x with
  | .protVer => none
  | .flags => none
  | .lenBody => some { F with lenBody := some v }
  | .time => some { F with time := some v }
  | .msgMjType => some { F with msgMjType := some v }
  | .msgMiType => some { F with msgMiType := some v }
  | .extHeader => some { F with extHeader := some v }
  | .sUniqid => some { F with sUniqid := some v }
  | .rUniqid => some { F with rUniqid := some v }
  | .sndSession => some { F with sndSession := some v }
  | .respSession => some { F with respSession := some v }
  | .sndSeq => some { F with sndSeq := some v }
  | .respSeq => some { F with respSeq := some v }

/-- One `name: value` of a record, put into it; a name already there is refused, a record being a map
(R11). -/
def fieldEntry (F : PartialRecord) : List AsmToken → Option (PartialRecord × List AsmToken)
  | .word w :: .mark ':' :: ts =>
    match HeaderField.all.find? (fun x => fieldName x == w) with
    | none => none
    | some x =>
      if F.has x then none
      else
        match ts with
        | .num v :: rest => (setPlain F x v).map fun G => (G, rest)
        | .mark '(' :: .num a :: .mark ',' :: .num b :: .mark ')' :: rest =>
          if x = .protVer then some ({ F with protVer := some ⟨a, b⟩ }, rest) else none
        | .mark '(' :: .num a :: .mark ',' :: .num b :: .mark ',' :: .word f :: .mark ')' :: rest =>
          if x = .flags then (boolOfWord f).map fun f => ({ F with flags := some ⟨a, b, f⟩ }, rest)
          else none
        | _ => none
  | _ => none

/-- The entries of a record up to its closing brace. -/
def fieldEntries : Nat → PartialRecord → List AsmToken → Option (PartialRecord × List AsmToken)
  | 0, _, _ => none
  | fuel + 1, F, ts =>
    match fieldEntry F ts with
    | some (G, .mark c :: rest) =>
      if c == closeBrace then some (G, rest)
      else if c == ',' then fieldEntries fuel G rest
      else none
    | _ => none

/-- A record operand, and the tokens after it (R75). -/
def recordOperand : List AsmToken → Option (PartialRecord × List AsmToken)
  | .mark o :: .mark c :: ts =>
    if o == openBrace && c == closeBrace then some ({}, ts) else none
  | .mark o :: ts => if o == openBrace then fieldEntries ts.length {} ts else none
  | _ => none

/-- A line's only operand: a byte sequence and nothing after it. -/
def onlyBytes (ts : List AsmToken) (k : Bytes → AsmLine) : Option AsmLine :=
  match bytesOperand ts with
  | some (d, []) => some (k d)
  | _ => none

/-- A record, a comma, a byte sequence, and nothing after them. -/
def recordAndBytes (ts : List AsmToken) (k : PartialRecord → Bytes → AsmLine) : Option AsmLine :=
  match recordOperand ts with
  | some (F, .mark ',' :: rest) => onlyBytes rest (k F)
  | _ => none

/-! ### Lines -/

/-- The forms of the commands (R75), and PACK_ALL (R76), after the client. -/
def commandForm (client now : Nat) (w : List Char) (ts : List AsmToken) : Option AsmLine :=
  if w = "CRC16".toList then onlyBytes ts fun d => .command client (.crc16 d)
  else if w = "CRC32".toList then onlyBytes ts fun d => .command client (.crc32 d)
  else if w = "VER_ENC".toList then
    match ts with
    | [.num major, .mark ',', .num minor] => some (.command client (.verEnc major minor))
    | _ => none
  else if w = "VER_DEC".toList then
    match ts with
    | [.num v] => if v < 256 then some (.command client (.verDec (BitVec.ofNat 8 v))) else none
    | _ => none
  else if w = "FLG_ENC".toList then
    match ts with
    | [.num a, .mark ',', .num b, .mark ',', .word f] =>
      (boolOfWord f).map fun f => .command client (.flgEnc a b f)
    | _ => none
  else if w = "FLG_DEC".toList then
    match ts with
    | [.num x] => if x < 256 then some (.command client (.flgDec (BitVec.ofNat 8 x))) else none
    | _ => none
  else if w = "HDR_ENC".toList then
    match recordOperand ts with
    | some (F, []) => some (.command client (.hdrEnc F))
    | _ => none
  else if w = "HDR_DEC".toList then onlyBytes ts fun d => .command client (.hdrDec d)
  else if w = "SEQ_NEXT".toList then
    if ts.isEmpty then some (.command client .seqNext) else none
  else if w = "PACK_START".toList then
    recordAndBytes ts fun ov body => .command client (.packStart ov body now)
  else if w = "PACK_NEXT".toList then
    if ts.isEmpty then some (.command client .packNext) else none
  else if w = "UNPACK".toList then onlyBytes ts fun p => .command client (.unpack p)
  else if w = "PACK_ALL".toList then
    recordAndBytes ts fun ov body => .packAll client ov body now
  else none

/-- The client of a `c<n>` prefix. -/
def clientOfWord : List Char → Option Nat
  | 'c' :: d :: ds => digitsValue 10 decValue 0 (d :: ds)
  | _ => none

/-- One line of text, with the draw `now` for a PACK_START or a PACK_ALL (R75, R76). The issuing client
is `c0` where no `c<n>:` says otherwise. None where the text is no command line. -/
def parseLine (now : Nat) (text : List Char) : Option AsmLine :=
  match tokens (text.length + 1) text with
  | some (.word c :: .mark ':' :: .word w :: ts) =>
    match clientOfWord c with
    | some n => commandForm n now w ts
    | none => none
  | some (.word w :: ts) => commandForm 0 now w ts
  | _ => none

/-- The event a line's command is: its client issues the encoding of it (R60). PACK_ALL is no event: every
command of its expansion is its own step (R76). -/
def AsmLine.event : AsmLine → Option Event
  | .command client i => some (.command ⟨client, encode i⟩)
  | .packAll _ _ _ _ => none

end Sys2Proof.Machine
end

