-- ==== Sys2Proof/Tests/Slice0.lean ====
section
/-! SUPPORT. Small tests of the model against the spec's own words and vectors (95_test_vectors.md; each
test names its vector), and a witness for the hypotheses of every statement. -/

namespace Sys2Proof.Tests

open Machine

/-! ### Helpers: the illustrative parameters of 95_test_vectors.md and small states -/

def params0 : Params := ⟨⟨0, 2⟩, ⟨2, 2, true⟩⟩

/-- A state of two clients, the command being client 0's. -/
def st (seq : BitVec 24) (slot0 : Slot) (inbox : List Event := []) : State where
  seq := seq
  slots := [slot0, .idle]
  params := params0
  issuer := 0
  inbox := inbox
  outbox := []

/-- The response a state ends with, and the block's state beside it. -/
def after (o : Host.Outcome State Fault Refusal) : Option (Status × Result × BitVec 24 × Option Slot) :=
  match o with
  | .next s => s.outbox.getLast?.map fun r => (r.status, r.result, s.seq, s.slot? 0)
  | .fault _ => none
  | .refused _ => none

/-- The status and result of the one response. -/
def reply (i : Instr) : Option (Status × Result) :=
  (after (exec i (st 0 .idle))).map fun (a, b, _, _) => (a, b)

def hexDigits (s : String) : Bytes := (hexBytes s.toList).getD []

def ascii (s : String) : Bytes := (asciiBytes s.toList).getD []

/-- `R_full` of 95_test_vectors.md. -/
def rFull : FullRecord where
  protVer := ⟨0, 1⟩
  flags := ⟨3, 5, true⟩
  lenBody := 0x1234
  time := 0x5F5E1000
  msgMjType := 0x72
  msgMiType := 0x01
  extHeader := 0
  sUniqid := 0x0001020304050607
  rUniqid := 0x1122334455667788
  sndSession := 0xABCD
  respSession := 0x00EF
  sndSeq := 0x123456
  respSeq := 0xFEDCBA

/-- The 40 bytes of V-H1. -/
def hFull : Bytes := hexDigits
  "01 76 1234 5F5E1000 72 01 ABCD 0001020304050607 0000 00EF 1122334455667788 123456 FEDCBA DA99"

/-- Overrides `O12` of 95_test_vectors.md. -/
def o12 : PartialRecord := { msgMjType := some 1, msgMiType := some 2 }

/-- The 49 bytes of V-P1. -/
def p1 : Bytes := hexDigits (
  "02 4A 0005 59682F00 01 02 0000 0000000000000000 0000 0000 0000000000000000 000000 000000 4376"
  ++ "68656C6C6F 3610A686")

/-- The stream of V-P1, with its packet left. -/
def helloCtx : Context := openContext params0 o12 (ascii "hello") 1500000000

/-- The stream of V-P5 after its first fragment. -/
def zerosCtx : Context :=
  { openContext params0 o12 (zerosBytes 1025) 1500000000 with index := 1, offset := 1024 }

/-! ### Well-formedness: one ill-formed term for each check -/

theorem test_wf_accepts : Command.wf ⟨0x01#8, .data []⟩ = true := by decide
theorem test_wf_refuses_reserved_bit : Command.rsvZero ⟨0x11#8, .data []⟩ = false := by decide
theorem test_wf_refuses_opcode_zero : Command.opLegal ⟨0x00#8, .none⟩ = false := by decide
theorem test_wf_refuses_opcode_13 : Command.opLegal ⟨0x0D#8, .none⟩ = false := by decide
theorem test_wf_refuses_other_operands : Command.operandsFit ⟨0x05#8, .data []⟩ = false := by decide
theorem test_wf_refuses_whole : Command.wf ⟨0x1F#8, .none⟩ = false := by decide
theorem test_issuable_refuses : Command.issuable ⟨0x05#8, .data []⟩ = false := by decide
theorem test_issuable_takes_reserved : Command.issuable ⟨0x1F#8, .none⟩ = true := by decide
theorem test_request_refuses_client : Request.wf 2 ⟨2, ⟨0x09#8, .none⟩⟩ = false := by decide

/-! ### Decoding: the bytes of 30_encoding.md R61, written out -/

theorem test_decode_checksum : decode ⟨0b00000010#8, .data [0x41#8]⟩ = .ok (.crc32 [0x41#8]) := by decide
theorem test_decode_header : decode ⟨0b00000101#8, .flags 3 5 true⟩ = .ok (.flgEnc 3 5 true) := by decide
theorem test_decode_sequence : decode ⟨0b00001001#8, .none⟩ = .ok .seqNext := by decide
theorem test_decode_packet :
    decode ⟨0b00001010#8, .message o12 [0x41#8] 7⟩ = .ok (.packStart o12 [0x41#8] 7) := by decide
theorem test_decode_reserved : decode ⟨0b00011111#8, .none⟩ = .error .illegalCommand := by decide

/-- Every row of the opcode table decodes from its word, with operand values of zeros. -/
theorem test_decode_table_words : (List.range 14).map (decodeTableWord 8) =
    [none, some (.crc16 []), some (.crc32 []), some (.verEnc 0 0), some (.verDec 0#8),
     some (.flgEnc 0 0 false), some (.flgDec 0#8), some (.hdrEnc {}), some (.hdrDec []), some .seqNext,
     some (.packStart {} [] 0), some .packNext, some (.unpack []), none] := by decide

/-- Every row runs as the first command after reset, whatever the open parameters are. -/
theorem test_table_words_run : (List.range 16).all (fun w =>
    match step (State.reset.withFetchWord 8 w) with
    | .next s => s.inbox.isEmpty && s.outbox.length == 1
    | .fault _ => false
    | .refused _ => false) = true := by decide

/-! ### The checksum unit (V-C2, V-C3, V-C4) -/

theorem test_crc16_check_value :
    reply (.crc16 (ascii "123456789")) = some (.ok, .nat16 0xBB3D#16) := by decide +kernel
theorem test_crc16_one : reply (.crc16 [0x01#8]) = some (.ok, .nat16 0xC0C1#16) := by decide +kernel
theorem test_crc32_check_value :
    reply (.crc32 (ascii "123456789")) = some (.ok, .nat32 0xCBF43926#32) := by decide +kernel
theorem test_crc32_zero_byte : reply (.crc32 [0x00#8]) = some (.ok, .nat32 0xD202EF8D#32) := by
  decide +kernel

/-! ### The version and flags bytes (V-V3, V-V5, V-V7, V-V8, V-F2, V-F5, V-F8, V-F11) -/

theorem test_verEnc_minor_masked : reply (.verEnc 0 17) = some (.ok, .byte 0x01#8) := by decide
theorem test_verEnc_major_16 : reply (.verEnc 16 0) = some (.fieldRange 0, .none) := by decide
theorem test_verDec_not_shifted :
    reply (.verDec 0x10#8) = some (.ok, .version ⟨16, 0, ascii "16.0"⟩) := by decide +kernel
theorem test_verDec_ff :
    reply (.verDec 0xFF#8) = some (.ok, .version ⟨240, 15, ascii "240.15"⟩) := by decide +kernel
theorem test_flgEnc_a_cut : reply (.flgEnc 9 0 false) = some (.ok, .byte 0x20#8) := by decide
theorem test_flgEnc_b_spills : reply (.flgEnc 0 9 false) = some (.ok, .byte 0x24#8) := by decide
theorem test_flgDec_76 : reply (.flgDec 0x76#8) = some (.ok, .flags ⟨3, 5, true⟩) := by decide
theorem test_flgDec_bit0_ignored : reply (.flgDec 0xFF#8) = some (.ok, .flags ⟨7, 7, true⟩) := by decide

/-! ### The header codec (V-H1, V-H12, V-H2, V-H8) -/

theorem test_hdrEnc_full : reply (.hdrEnc rFull.toPartial) = some (.ok, .header hFull) := by
  decide +kernel
theorem test_hdrEnc_presence_before_range :
    reply (.hdrEnc { rFull.toPartial with lenBody := some 65536, msgMjType := none }) =
      some (.missingField 4, .none) := by decide +kernel
theorem test_hdrDec_full : reply (.hdrDec hFull) = some (.ok, .fields
    { protVer := ⟨0, 1, ascii "0.1"⟩, flags := ⟨3, 5, true⟩, lenBody := 4660, time := 1600000000,
      msgMjType := 114, msgMiType := 1, extHeader := 0, sUniqid := 0x0001020304050607,
      rUniqid := 0x1122334455667788, sndSession := 43981, respSession := 239, sndSeq := 1193046,
      respSeq := 16702650 }) := by decide +kernel
theorem test_hdrDec_stored_crc_changed :
    reply (.hdrDec (flipBit hFull 39 7)) = some (.headerIntegrityError, .none) := by decide +kernel

/-! ### The counter and the streams (V-S2, V-P1, V-P5, V-P6, V-P7, P6) -/

theorem test_seqNext_wraps :
    after (exec .seqNext (st 0xFFFFFF#24 .idle)) =
      some (.ok, .nat32 0xFFFFFF#32, 0#24, some .idle) := by decide
theorem test_packStart_abandons :
    after (exec (.packStart o12 (ascii "A") 1500000000) (st 0xFFFFFF#24 (.active zerosCtx))) =
      some (.ok, .none, 0xFFFFFF#24, some (.active
        { hdr := { protVer := some ⟨0, 2⟩, flags := some ⟨2, 2, true⟩, lenBody := some 1,
                   time := some 1500000000, msgMjType := some 1, msgMiType := some 2, extHeader := some 0,
                   sUniqid := some 0, rUniqid := some 0, sndSession := some 0, respSession := some 0,
                   sndSeq := none, respSeq := some 0 },
          body := [0x41#8], mode := .single, index := 0, offset := 0 })) := by decide +kernel
theorem test_packStart_1024_is_frag :
    (openContext params0 o12 (zerosBytes 1024) 0).mode = .frag := by decide +kernel
theorem test_packNext_hello :
    after (exec .packNext (st 0#24 (.active helloCtx))) =
      some (.ok, .packet p1, 1#24, some (.active { helloCtx with index := 1 })) := by decide +kernel
theorem test_packNext_second_fragment :
    (after (exec .packNext (st 1#24 (.active zerosCtx)))).map (fun (a, b, q, _) =>
      (a, q, match b with | .packet p => (p.length, slice p 32 35, p.drop 40) | _ => (0, [], []))) =
      some (.ok, 2#24, 49, hexDigits "000001", hexDigits "00000001 00 DF39C65C") := by decide +kernel

/-- P5: the failing emission takes a value and closes the stream. -/
theorem test_packNext_missing_type :
    after (exec .packNext (st 0#24 (.active (openContext params0 { msgMiType := some 2 } (ascii "hello") 0)))) =
      some (.missingField 4, .none, 1#24, some .done) := by decide +kernel

/-- P2, with `PACK_ALL`: one packet, then END. -/
theorem test_packAll_hello :
    (packAll o12 (ascii "hello") 1500000000 (st 0#24 .idle)).map (fun r => (r.packets, r.final, r.state.seq)) =
      some ([p1], .endOfStream, 1#24) := by decide +kernel

/-! ### Unpacking (V-U2, V-U10) -/

/-- Four fields and the body of an unpacked packet. -/
def unpackedParts : Result → Nat × Nat × Nat × Nat × Bytes
  | .unpacked r body => (r.msgMjType, r.msgMiType, r.lenBody, r.time, body)
  | _ => (0, 0, 0, 0, [])

theorem test_unpack_hello :
    (reply (.unpack p1)).map (fun q => unpackedParts q.2) =
      some (1, 2, 5, 1500000000, ascii "hello") := by decide +kernel
theorem test_unpack_body_checked_first :
    reply (.unpack (flipBit (flipBit p1 0 0) 40 0)) = some (.bodyIntegrityError, .none) := by
  decide +kernel

/-! ### The textual form (30_encoding.md R75, R76) -/

theorem test_parse_flags_line :
    parseLine 0 "c1: FLG_ENC 3, 0x5, true ; S7".toList = some (.command 1 (.flgEnc 3 5 true)) := by
  decide +kernel
theorem test_parse_start_line :
    parseLine 9 ("PACK_START ".toList ++ [openBrace] ++ "msg_mj_type: 1, msg_mi_type: 2".toList
      ++ [closeBrace] ++ ", b\"hello\"".toList) =
      some (.command 0 (.packStart o12 (ascii "hello") 9)) := by decide +kernel
theorem test_parse_refuses_repeated_name :
    parseLine 9 ("HDR_ENC ".toList ++ [openBrace] ++ "time: 1, time: 2".toList ++ [closeBrace]) = none := by
  decide +kernel

/-! ### Stops -/

theorem test_step_faults_without_client :
    (match step (st 0 .idle [.command ⟨2, encode .seqNext⟩]) with
     | .fault .noSuchClient => true
     | _ => false) = true := by decide
theorem test_step_refuses_other_operands :
    (match step (st 0 .idle [.command ⟨0, ⟨0x05#8, .data []⟩⟩]) with
     | .refused .operandMismatch => true
     | _ => false) = true := by decide

/-! ### Witnesses: for every statement with hypotheses, values that meet them all

Each is named after its statement. A statement of several clauses gets a witness for each clause, at a
boundary where it has one. -/

/-- A full record at the top of every width. -/
def rTop : FullRecord where
  protVer := ⟨15, 15⟩
  flags := ⟨9, 9, true⟩
  lenBody := 2 ^ 16 - 1
  time := 2 ^ 32 - 1
  msgMjType := 2 ^ 8 - 1
  msgMiType := 2 ^ 8 - 1
  extHeader := 2 ^ 16 - 1
  sUniqid := 2 ^ 64 - 1
  rUniqid := 2 ^ 64 - 1
  sndSession := 2 ^ 16 - 1
  respSession := 2 ^ 16 - 1
  sndSeq := 2 ^ 24 - 1
  respSeq := 2 ^ 24 - 1

theorem fits_of_check {R : FullRecord} (h : (checkRecord R.toPartial).toOption = some R) : R.fits := by
  cases hc : checkRecord R.toPartial with
  | error e => rw [hc] at h; cases h
  | ok R' =>
    rw [hc] at h
    cases h
    exact ((checkRecord_eq_ok_iff _ _).mp hc).2

theorem rTop_fits : rTop.fits := fits_of_check (by decide +kernel)
theorem rFull_fits : rFull.fits := fits_of_check (by decide +kernel)

/-- A value computed by a codec function, where it computes one. -/
theorem ok_of_isSome {α : Type} {r : Except Status α} (h : r.toOption.isSome = true) : ∃ v, r = .ok v := by
  cases r with
  | error e => cases h
  | ok v => exact ⟨v, rfl⟩

/-- A PACK_NEXT of client 0 that emits. -/
theorem packNext_answers {seq : BitVec 24} {ctx : Context} {inbox : List Event}
    (hx : ctx.exhausted = false) (hp : (emitPacket ctx seq).toOption.isSome = true) :
    ∃ t p ctx', Answers .packNext (st seq (.active ctx) inbox) t .ok (.packet p) ∧
      t.slot? 0 = some (.active ctx') := by
  obtain ⟨⟨p, ctx'⟩, hq⟩ := ok_of_isSome hp
  rcases execPackNext_cases (st seq (.active ctx) inbox) with ⟨h, _⟩ | ⟨h, _⟩ | ⟨h, _⟩ | ⟨c, h, h2, _⟩ |
    ⟨c, e, h, _, h3, _⟩ | ⟨c, p', c', h, _, h3, h4⟩ <;> simp only [st, State.slot?] at h <;> cases h
  · rw [hx] at h2; cases h2
  · simp only [st] at h3; rw [hq] at h3; cases h3
  · exact ⟨_, p', c', ⟨h4, rfl⟩, rfl⟩

theorem hFull_decodes : ∃ r, hdrDecode hFull = .ok r := ok_of_isSome (by decide +kernel)
theorem p1_unpacks : ∃ v, unpackPacket p1 = .ok v := ok_of_isSome (by decide +kernel)

theorem witness_ReservedBytesAnswerIllegal :
    ∃ (s : State) (r : Request) (es : List Event), s.inbox = .command r :: es ∧
      r.client < s.nClients ∧ decode r.command = .error .illegalCommand :=
  ⟨st 0 .idle [.command ⟨1, ⟨0x1F#8, .none⟩⟩], ⟨1, ⟨0x1F#8, .none⟩⟩, [], rfl, by decide, by decide⟩

theorem witness_BigEndianRoundTrip : (1 : Nat) < 2 ∧ (65535 : Nat) < 2 ^ (8 * 2) := by decide

theorem witness_StepPerformsDecodedCommand :
    ∃ (s : State) (r : Request) (es : List Event) (i : Instr), s.inbox = .command r :: es ∧
      r.client < s.nClients ∧ decode r.command = .ok i :=
  ⟨st 0 .idle [.command ⟨1, encode .packNext⟩], ⟨1, encode .packNext⟩, [], .packNext, rfl, by decide,
    by decide⟩

theorem witness_IdleBlockDoesNothing : (st 5 .done).inbox = [] := rfl

theorem witness_ResetClearsTheBlock :
    (st 5 (.active helloCtx) [.reset]).inbox = .reset :: [] ∧
      1 < (st 5 (.active helloCtx) [.reset]).slots.length := ⟨rfl, by decide⟩

theorem witness_StepKeepsSlotInvariants :
    ∃ s t : State, s.inv = true ∧ step s = .next t :=
  ⟨st 5 (.active zerosCtx) [.command ⟨0, encode .seqNext⟩], _, by decide +kernel, rfl⟩

/-- SINGLE at its longest body, FRAG at its shortest. -/
theorem witness_LegalContextShape :
    (openContext params0 o12 (zerosBytes 1023) 0).wf = true ∧
      (openContext params0 o12 (zerosBytes 1023) 0).mode = .single ∧
      (openContext params0 o12 (zerosBytes 1024) 0).wf = true ∧
      (openContext params0 o12 (zerosBytes 1024) 0).mode = .frag := by decide +kernel

theorem witness_OpenStreamKeepsItsRecord :
    ∃ (i : Instr) (s t : State) (c : Nat) (ctx ctx' : Context), exec i s = .next t ∧
      s.slot? c = some (.active ctx) ∧ t.slot? c = some (.active ctx') ∧
      (c = s.issuer → ∀ ov body now, i ≠ .packStart ov body now) := by
  obtain ⟨t, p, ctx', h, h2⟩ := packNext_answers (seq := 0) (ctx := zerosCtx) (inbox := [])
    (by decide +kernel) (by decide +kernel)
  exact ⟨.packNext, _, t, 0, zerosCtx, ctx', h.1, rfl, h2, fun _ _ _ _ h => by cases h⟩

theorem witness_ParametersNeverChange :
    ∃ s t : State, step s = .next t := ⟨st 5 .idle [.command ⟨0, encode .seqNext⟩], _, rfl⟩

theorem witness_OneResponseToTheIssuer :
    ∃ (i : Instr) (s t : State), exec i s = .next t := ⟨.seqNext, st 5 .idle, _, rfl⟩

theorem witness_EndOfStreamCarriesNothing :
    ∃ t, Answers .packNext (st 5 .done) t .endOfStream .none := ⟨_, rfl, rfl⟩

/-- Both clauses: a failure that writes nothing, and an emission that fails. -/
theorem witness_FailingCommandsWriteNothingElse :
    (∃ t, Answers (.verEnc 16 0) (st 5 .idle) t (.fieldRange 0) .none) ∧
    (∃ t, Answers .packNext (st 5 (.active { helloCtx with hdr := {} })) t (.missingField 0) .none) ∧
    (Status.fieldRange 0).isFailure = true ∧ (Status.missingField 0).isFailure = true :=
  ⟨⟨_, rfl, rfl⟩, ⟨_, rfl, rfl⟩, rfl, rfl⟩

theorem witness_SlotsArePrivate :
    ∃ (i : Instr) (s s' t t' : State), exec i s = .next t ∧ exec i s' = .next t' ∧
      s'.seq = s.seq ∧ s'.params = s.params ∧ s'.issuer = s.issuer ∧
      s'.slot? s.issuer = s.slot? s.issuer ∧ s' ≠ s ∧ (1 : Nat) ≠ s.issuer :=
  ⟨.packNext, st 5 .done, { st 5 .done with slots := [.done, .done] }, _, _, rfl, rfl, rfl, rfl, rfl, rfl,
    by decide +kernel, by decide⟩

theorem witness_PureCommandsCommute :
    (Instr.verEnc 1 2).isPure = true ∧ ∃ (s t u v : State), exec .seqNext s = .next t ∧
      exec (.verEnc 1 2) s = .next u ∧ exec .seqNext u = .next v :=
  ⟨rfl, st 5 .idle, _, _, _, rfl, rfl, rfl⟩

/-- A reset, a reserved byte and a legal command, of two clients. -/
theorem witness_EveryRequestIsServed :
    (st 5 (.active zerosCtx) [.command ⟨1, ⟨0x1F#8, .none⟩⟩, .reset,
      .command ⟨0, encode .packNext⟩]).inv = true ∧
    (st 5 (.active zerosCtx) [.command ⟨1, ⟨0x1F#8, .none⟩⟩, .reset,
      .command ⟨0, encode .packNext⟩]).inboxWf = true := by decide +kernel

theorem witness_CrcsDetectSingleBitChanges : (0 : Nat) < (ascii "A").length ∧ (7 : Nat) < 8 := by
  decide +kernel

/-- Both clauses, where they meet. -/
theorem witness_VersionEncodes : (15 : Nat) ≤ 15 ∧ 15 < (16 : Nat) := by decide

theorem witness_VersionRoundTrip :
    (15 : Nat) ≤ 15 ∧ Replies (.verEnc 15 17) (st 0 .idle) .ok (.byte 0xF1#8) := ⟨by decide, rfl⟩

theorem witness_FlagsEncode : (7 : Nat) ≤ 7 := by decide

theorem witness_FlagsRoundTrip : Replies (.flgEnc 9 9 true) (st 0 .idle) .ok (.byte 0x26#8) := rfl

theorem witness_HeaderEncodesTheLayout : rTop.fits := rTop_fits

/-- A missing field with every lower one there; a value out of range by one with every lower one in
range; a record that passes. -/
theorem witness_HeaderChecksInOrder :
    (∃ F : PartialRecord, F.has .msgMjType = false ∧
      ∀ y : HeaderField, y.index < HeaderField.msgMjType.index → F.has y = true) ∧
    (∃ R : FullRecord, ¬ R.fitsField .time ∧
      ∀ y : HeaderField, y.index < HeaderField.time.index → R.fitsField y) ∧ rTop.fits := by
  refine ⟨⟨{ rFull.toPartial with msgMjType := none }, rfl, ?_⟩, ⟨{ rTop with time := 2 ^ 32 }, ?_, ?_⟩,
    rTop_fits⟩
  · intro y hy
    cases y <;> first | rfl | (simp [HeaderField.index] at hy)
  · intro h
    exact absurd (h.2 (2 ^ 32) rfl) (by decide)
  · intro y hy
    cases y <;> first
      | exact rTop_fits .protVer
      | exact rTop_fits .flags
      | exact rTop_fits .lenBody
      | (simp [HeaderField.index] at hy)

/-- The three clauses: 39 bytes, a stored CRC that does not match, a header. -/
theorem witness_HeaderDecodes :
    (hFull.take 39).length ≠ 40 ∧
    ((flipBit hFull 39 7).length = 40 ∧
      fromBE (slice (flipBit hFull 39 7) 38 40) ≠ (crc16 (slice (flipBit hFull 39 7) 0 38)).toNat) ∧
    hFull.length = 40 ∧ fromBE (slice hFull 38 40) = (crc16 (slice hFull 0 38)).toNat := by
  decide +kernel

theorem witness_DecodedFieldsFit : ∃ r, Replies (.hdrDec hFull) (st 0 .idle) .ok (.fields r) :=
  hFull_decodes.imp fun _ h => replies_hdrDec _ h

theorem witness_HeaderTamperDetected :
    (∃ r, Replies (.hdrDec hFull) (st 0 .idle) .ok (.fields r)) ∧ (39 : Nat) < 40 ∧ (7 : Nat) < 8 :=
  ⟨witness_DecodedFieldsFit, by decide, by decide⟩

theorem witness_HeaderRoundTrip :
    ∃ h, Replies (.hdrEnc rTop.toPartial) (st 0 .idle) .ok (.header h) :=
  ⟨encodeHeader rTop, replies_hdrEnc _ ((hdrEncode_eq_ok_iff _ _).mpr ⟨rTop, rfl, rTop_fits, rfl⟩)⟩

theorem witness_OnlyTakersMoveTheCounter :
    ∃ s t : State, s.inbox.head? ≠ some .reset ∧ step s = .next t ∧ takesValue s = true :=
  ⟨st 0xFFFFFF#24 .idle [.command ⟨0, encode .seqNext⟩], _, by decide, rfl, by decide⟩

theorem witness_TakenValuesAreConsecutive :
    ∃ (k : Nat) (s : State) (i j : Nat) (v w : BitVec 24), (∀ e ∈ s.inbox.take k, e ≠ .reset) ∧
      (takenValues k s)[i]? = some v ∧ (takenValues k s)[j]? = some w ∧ i < j ∧ j - i < 2 ^ 24 :=
  ⟨2, st 0xFFFFFF#24 .idle [.command ⟨0, encode .seqNext⟩, .command ⟨1, encode .seqNext⟩], 0, 1,
    0xFFFFFF#24, 0#24, by decide, by decide, by decide, by decide, by decide⟩

theorem witness_StampingNeverFails :
    ∃ t, Answers (.hdrEnc (({} : PartialRecord).setSndSeq 0xFFFFFF#24)) (st 0 .idle) t (.missingField 0)
      .none := ⟨_, rfl, rfl⟩

theorem witness_PackStartOpensAStream :
    (st 0 (.active helloCtx)).issuer < (st 0 (.active helloCtx)).nClients := by decide

/-- All the clauses: IDLE, DONE, and the two ways a stream is exhausted. -/
theorem witness_PackNextWithoutAPacket :
    (st 0 .idle).slot? 0 = some .idle ∧ (st 0 .done).slot? 0 = some .done ∧
    ((st 0 (.active { helloCtx with index := 1 })).slot? 0 = some (.active { helloCtx with index := 1 }) ∧
      ({ helloCtx with index := 1 } : Context).mode = .single) ∧
    (({ zerosCtx with offset := 2048 } : Context).mode = .frag ∧
      ({ zerosCtx with offset := 2048 } : Context).body.length ≤ 2048) :=
  ⟨rfl, rfl, ⟨rfl, by decide +kernel⟩, by decide +kernel⟩

/-- The record of the two streams below, stamped with 0. -/
def helloRecord : FullRecord :=
  ⟨⟨0, 2⟩, ⟨2, 2, true⟩, 5, 1500000000, 1, 2, 0, 0, 0, 0, 0, 0, 0⟩

theorem witness_PackNextEmitsASinglePacket :
    ∃ (s : State) (ctx : Context) (R : FullRecord), s.slot? s.issuer = some (.active ctx) ∧
      ctx.mode = .single ∧ ctx.index ≠ 1 ∧
      { ctx.hdr with sndSeq := some s.seq.toNat } = R.toPartial ∧ R.fits :=
  ⟨st 0 (.active helloCtx), helloCtx, helloRecord, rfl, by decide +kernel, by decide +kernel,
    by decide +kernel, fits_of_check (by decide +kernel)⟩

/-- At the largest index that fits four bytes. -/
theorem witness_PackNextEmitsAFragment :
    ∃ (s : State) (ctx : Context) (R : FullRecord), s.slot? s.issuer = some (.active ctx) ∧
      ctx.mode = .frag ∧ ctx.offset < ctx.body.length ∧ ctx.index < 2 ^ 32 ∧
      { ctx.hdr with sndSeq := some s.seq.toNat } = R.toPartial ∧ R.fits :=
  ⟨st 0 (.active { zerosCtx with index := 2 ^ 32 - 1 }), { zerosCtx with index := 2 ^ 32 - 1 },
    { helloRecord with lenBody := 1025 }, rfl, by decide +kernel, by decide +kernel, by decide +kernel,
    by decide +kernel, fits_of_check (by decide +kernel)⟩

/-- Both clauses: a header that does not encode, and an index one too large. -/
theorem witness_FailedEmissionClosesTheStream :
    (∃ (s : State) (ctx : Context) (e : Status), s.slot? s.issuer = some (.active ctx) ∧
      ctx.exhausted = false ∧
      Replies (.hdrEnc { ctx.hdr with sndSeq := some s.seq.toNat }) s e .none) ∧
    ∃ (s : State) (ctx : Context) (h : Bytes), s.slot? s.issuer = some (.active ctx) ∧
      ctx.exhausted = false ∧
      Replies (.hdrEnc { ctx.hdr with sndSeq := some s.seq.toNat }) s .ok (.header h) ∧
      ctx.mode = .frag ∧ 2 ^ 32 ≤ ctx.index := by
  constructor
  · exact ⟨st 0 (.active { helloCtx with hdr := {} }), _, .missingField 0, rfl, by decide +kernel, rfl⟩
  · obtain ⟨h, hh⟩ := ok_of_isSome
      (r := hdrEncode { zerosCtx.hdr with sndSeq := some 0 }) (by decide +kernel)
    exact ⟨st 0 (.active { zerosCtx with index := 2 ^ 32 }), _, h, rfl, by decide +kernel,
      replies_hdrEnc _ hh, by decide +kernel, by decide⟩

/-- Both modes. -/
theorem witness_PacketLengths :
    (∃ t p, Answers .packNext (st 0 (.active helloCtx)) t .ok (.packet p)) ∧
    (∃ t p, Answers .packNext (st 0 (.active zerosCtx)) t .ok (.packet p)) ∧
    helloCtx.wf = true ∧ helloCtx.mode = .single ∧ zerosCtx.wf = true ∧ zerosCtx.mode = .frag := by
  refine ⟨?_, ?_, by decide +kernel, by decide +kernel, by decide +kernel, by decide +kernel⟩
  · obtain ⟨t, p, _, h, _⟩ := packNext_answers (seq := 0) (ctx := helloCtx) (inbox := [])
      (by decide +kernel) (by decide +kernel)
    exact ⟨t, p, h⟩
  · obtain ⟨t, p, _, h, _⟩ := packNext_answers (seq := 0) (ctx := zerosCtx) (inbox := [])
      (by decide +kernel) (by decide +kernel)
    exact ⟨t, p, h⟩

/-- Runs that come to END on both sides of the single-packet threshold, and with a last chunk of one
byte. -/
theorem witness_ChunksMakeUpTheMessage : ∀ n ∈ [0, 1023, 1024, 1025],
    (packAll o12 (zerosBytes n) 1500000000 (st 0 .idle)).map (·.final) = some .endOfStream := by
  decide +kernel

/-- A message at the single-packet threshold. -/
theorem witness_PackAllEmitsTheWholeMessage :
    ∃ (ov : PartialRecord) (body : Bytes) (now : Nat) (s : State) (R : FullRecord),
      s.issuer < s.nClients ∧
      { streamRecord s.params ov body now with sndSeq := some 0 } = R.toPartial ∧ R.fits ∧
      body.length ≤ 2 ^ 42 :=
  ⟨o12, zerosBytes 1024, 1500000000, st 0 .idle, { helloRecord with lenBody := 1024 }, by decide,
    by decide +kernel, fits_of_check (by decide +kernel), by decide +kernel⟩

/-- Client 0 (a FRAG stream with two chunks left), client 1 and client 0 again pull. -/
def twoStreams : State where
  seq := 0xFFFFFF#24
  slots := [.active { zerosCtx with index := 0, offset := 0 }, .active helloCtx]
  params := params0
  issuer := 0
  inbox := [.command ⟨0, encode .packNext⟩, .command ⟨1, encode .packNext⟩,
    .command ⟨0, encode .packNext⟩]
  outbox := []

def isPacket : Result → Bool
  | .packet _ => true
  | _ => false

def outboxShape : Host.Outcome State Fault Refusal → List (Nat × Status × Bool)
  | .next t => t.outbox.map fun r => (r.client, r.status, isPacket r.result)
  | _ => []

theorem witness_InterleavedStreamsShareTheCounter :
    ∃ (t : State) (q1 q2 q3 : Bytes), Host.Core.run core 3 twoStreams = .next t ∧
      t.outbox = twoStreams.outbox ++
        [⟨0, .ok, .packet q1⟩, ⟨1, .ok, .packet q2⟩, ⟨0, .ok, .packet q3⟩] := by
  have h : outboxShape (Host.Core.run core 3 twoStreams) =
      [(0, .ok, true), (1, .ok, true), (0, .ok, true)] := by decide +kernel
  cases hr : Host.Core.run core 3 twoStreams with
  | fault f => rw [hr] at h; cases h
  | refused q => rw [hr] at h; cases h
  | next t =>
    rw [hr] at h
    obtain ⟨⟨c1, s1, r1⟩, l1, e1, h1, h⟩ := List.map_eq_cons_iff.mp h
    obtain ⟨⟨c2, s2, r2⟩, l2, e2, h2, h⟩ := List.map_eq_cons_iff.mp h
    obtain ⟨⟨c3, s3, r3⟩, l3, e3, h3, h⟩ := List.map_eq_cons_iff.mp h
    have e4 := List.map_eq_nil_iff.mp h
    cases r1 <;> cases h1
    cases r2 <;> cases h2
    cases r3 <;> cases h3
    exact ⟨t, _, _, _, rfl, by rw [e1, e2, e3, e4]; rfl⟩

theorem witness_UnpackChecksAndSplits :
    (p1.take 43).length < 44 ∧
    (44 ≤ (flipBit p1 45 0).length ∧
      (crc32 (slice (flipBit p1 45 0) 40 (49 - 4))).toNat ≠ fromBE (slice (flipBit p1 45 0) (49 - 4) 49)) ∧
    (44 ≤ p1.length ∧ (crc32 (slice p1 40 (p1.length - 4))).toNat =
      fromBE (slice p1 (p1.length - 4) p1.length)) ∧
    fromBE (slice (flipBit p1 37 0) 38 40) ≠ (crc16 (slice (flipBit p1 37 0) 0 38)).toNat ∧
    fromBE (slice p1 38 40) = (crc16 (slice p1 0 38)).toNat := by decide +kernel

theorem witness_UnpackNeverReportsHeaderLength :
    ∃ t, Answers (.unpack []) (st 0 .idle) t .invalidPacketLength .none := ⟨_, rfl, rfl⟩

/-- The last header byte and the first body byte. -/
theorem witness_PacketTamperDetected :
    (∃ r b, Replies (.unpack p1) (st 0 .idle) .ok (.unpacked r b)) ∧ 39 < p1.length ∧ 40 < p1.length ∧
      (7 : Nat) < 8 := by
  obtain ⟨⟨r, b⟩, h⟩ := p1_unpacks
  exact ⟨⟨r, b, replies_unpack _ h⟩, by decide +kernel, by decide +kernel, by decide⟩

theorem witness_UnpackChecksNothingElse :
    ∃ r, Replies (.hdrDec hFull) (st 0 .idle) .ok (.fields r) := witness_DecodedFieldsFit

theorem witness_EmittedPacketsUnpack :
    ∃ t p, Answers .packNext (st 0 (.active zerosCtx)) t .ok (.packet p) := witness_PacketLengths.2.1

end Sys2Proof.Tests
end

section
/-! PROOFS. What a request, a step and a run over the inbox do, and the obligations on them
(00_scope.md R5, R6; 10_state.md R24; 30_encoding.md R63, R80). -/

namespace Sys2Proof.Machine

/-! ### Commands the interface can carry -/

/-- The check on the operands passes exactly where the decoder does not refuse them (R62, R63). -/
theorem issuable_iff_decode_ne_mismatch (c : Command) :
    c.issuable = true ↔ decode c ≠ .error .operandMismatch := by
  obtain ⟨b, v⟩ := c
  have hb := byte_checks_iff b v
  cases hd : decodeByte b with
  | none =>
    have hdec : decode ⟨b, v⟩ = .error .illegalCommand := by simp [decode, hd]
    simp only [hd, Option.isSome_none, Bool.false_eq_true, iff_false, not_and, Bool.not_eq_true] at hb
    rw [hdec]
    cases hr : Command.rsvZero ⟨b, v⟩ <;> simp [Command.issuable, hr, hb]
  | some o =>
    have hdec : decode ⟨b, v⟩ = bindOperands o v := by simp [decode, hd]
    obtain ⟨hr, hl⟩ := hb.mpr (by simp [hd])
    obtain rfl := (decodeByte_eq_some_iff b o).mp hd
    rw [hdec, ← operandsFit_byte_iff]
    simp [Command.issuable, hr, hl]

/-! ### What a request and a step come to -/

@[simp] theorem State.nClients_accept (s : State) (c : Nat) : (s.accept c).nClients = s.nClients := rfl

theorem State.accept_eq {s : State} {e : Event} {es : List Event} (h : s.inbox = e :: es) (c : Nat) :
    s.accept c = { s with inbox := es, issuer := c } := by
  simp [State.accept, State.popEvent, h]

theorem step_of_reset {s : State} {es : List Event} (h : s.inbox = .reset :: es) :
    step s = .next s.popEvent.resetBlock := by
  simp [step, h]

theorem step_of_command {s : State} {r : Request} {es : List Event} (h : s.inbox = .command r :: es) :
    step s = perform r s := by
  simp [step, h]

theorem perform_of_decode_ok {r : Request} {s : State} {i : Instr} (hc : r.client < s.nClients)
    (hd : decode r.command = .ok i) : perform r s = exec i (s.accept r.client) := by
  simp [perform, hc, hd]

/-- A request faults, is refused, or completes, by its client and its command alone. -/
theorem perform_cases (r : Request) (s : State) :
    (s.nClients ≤ r.client ∧ perform r s = .fault .noSuchClient) ∨
    (r.client < s.nClients ∧ decode r.command = .error .operandMismatch ∧
      perform r s = .refused .operandMismatch) ∨
    (r.client < s.nClients ∧ decode r.command ≠ .error .operandMismatch ∧
      ∃ t, perform r s = .next t) := by
  by_cases hc : r.client < s.nClients
  · cases hd : decode r.command with
    | ok i =>
      obtain ⟨t, ht⟩ := exec_completes i (s.accept r.client) hc
      exact .inr (.inr ⟨hc, by simp, t, (perform_of_decode_ok hc hd).trans ht⟩)
    | error e =>
      cases e with
      | illegalCommand => exact .inr (.inr ⟨hc, by simp, _, by simp only [perform, hc, hd, if_true]; rfl⟩)
      | operandMismatch => exact .inr (.inl ⟨hc, rfl, by simp [perform, hc, hd]⟩)
  · exact .inl ⟨by omega, by simp [perform, hc]⟩

theorem perform_faults_iff (r : Request) (s : State) :
    (∃ f, perform r s = .fault f) ↔ s.nClients ≤ r.client := by
  rcases perform_cases r s with ⟨hc, h⟩ | ⟨hc, _, h⟩ | ⟨hc, _, t, h⟩
  · exact iff_of_true ⟨_, h⟩ hc
  · simp [h, hc]
  · simp [h, hc]

theorem perform_refuses_iff (r : Request) (s : State) :
    (∃ q, perform r s = .refused q) ↔
      r.client < s.nClients ∧ decode r.command = .error .operandMismatch := by
  rcases perform_cases r s with ⟨hc, h⟩ | ⟨hc, hd, h⟩ | ⟨_, hd, t, h⟩
  · simp [h, hc]
  · simp [h, hc, hd]
  · simp [h, hd]

/-- An event the environment can cause is performed. -/
theorem step_completes {s : State} {e : Event} {es : List Event} (h : s.inbox = e :: es)
    (he : e.wf s.nClients = true) : ∃ t, step s = .next t := by
  cases e with
  | reset => exact ⟨_, step_of_reset h⟩
  | command r =>
    simp only [Event.wf, Request.wf, Bool.and_eq_true, decide_eq_true_eq] at he
    obtain ⟨hc, hi⟩ := he
    rw [step_of_command h]
    rcases perform_cases r s with ⟨hn, _⟩ | ⟨_, hd, _⟩ | ⟨_, _, ht⟩
    · omega
    · exact absurd hd ((issuable_iff_decode_ne_mismatch _).mp hi)
    · exact ht

/-! ### What an instruction and a step leave of the interface -/

/-- An instruction writes the counter and the slots, never their number, and gives one response. -/
theorem exec_next_eq_respond {i : Instr} {s t : State} (h : exec i s = .next t) :
    ∃ q sl st r, sl.length = s.slots.length ∧
      t = State.respond { s with seq := q, slots := sl } st r := by
  rcases exec_next_cases h with ⟨_, st, r, rfl⟩ | ⟨_, rfl⟩ | ⟨ov, body, now, v, _, _, rfl⟩ |
    ⟨_, ⟨_, rfl⟩ | ⟨_, rfl⟩ | ⟨ctx, _, _, rfl⟩ | ⟨ctx, st, _, _, _, rfl⟩ | ⟨ctx, p, ctx', _, _, _, rfl⟩⟩
  · exact ⟨s.seq, s.slots, st, r, rfl, rfl⟩
  · exact ⟨s.seq + 1, s.slots, _, _, rfl, rfl⟩
  · exact ⟨s.seq, _, _, _, List.length_set, rfl⟩
  · exact ⟨s.seq, s.slots, _, _, rfl, rfl⟩
  · exact ⟨s.seq, s.slots, _, _, rfl, rfl⟩
  · exact ⟨s.seq, _, _, _, List.length_set, rfl⟩
  · exact ⟨s.seq + 1, _, _, _, List.length_set, rfl⟩
  · exact ⟨s.seq + 1, _, _, _, List.length_set, rfl⟩

/-- A step takes at most its event off the inbox, keeps the parameters and the number of clients, and
gives the issuer of a command one response (R5, R243). -/
theorem step_next_frame {s t : State} (h : step s = .next t) :
    t.inbox = s.inbox.tail ∧ t.params = s.params ∧ t.nClients = s.nClients ∧
      t.outbox.map Response.client =
        s.outbox.map Response.client ++ commandClients (s.inbox.take 1) := by
  rcases step_next_cases h with ⟨hb, rfl⟩ | ⟨es, hb, rfl⟩ | ⟨r, es, hb, _, _, rfl⟩ |
    ⟨r, es, i, hb, _, _, hx⟩
  · simp [hb, commandClients]
  · exact ⟨rfl, rfl, State.nClients_resetBlock _, by simp [hb, commandClients]⟩
  · exact ⟨rfl, rfl, rfl, by simp [hb, commandClients]⟩
  · obtain ⟨q, sl, st, v, hlen, rfl⟩ := exec_next_eq_respond hx
    exact ⟨rfl, rfl, hlen, by simp [hb, commandClients]⟩

/-! ### The invariant of the slots (R24) -/

theorem State.inv_iff (s : State) :
    s.inv = true ↔ 1 ≤ s.nClients ∧ ∀ v ∈ s.slots, v.wf = true := by
  simp [State.inv]

theorem State.inv_setSlot {s : State} {v : Slot} (c : Nat) (hs : s.inv = true) (hv : v.wf = true) :
    (s.setSlot c v).inv = true := by
  obtain ⟨hn, hw⟩ := s.inv_iff.mp hs
  refine (State.inv_iff _).mpr ⟨by simpa using hn, fun w hm => ?_⟩
  rcases List.mem_or_eq_of_mem_set hm with hm | rfl
  · exact hw w hm
  · exact hv

theorem State.inv_resetBlock {s : State} (hs : s.inv = true) : s.resetBlock.inv = true := by
  refine (State.inv_iff _).mpr ⟨by simpa using (s.inv_iff.mp hs).1, fun v hv => ?_⟩
  obtain rfl := List.eq_of_mem_replicate hv
  rfl

theorem State.wf_of_slot? {s : State} {c : Nat} {v : Slot} (hs : s.inv = true)
    (h : s.slot? c = some v) : v.wf = true :=
  (s.inv_iff.mp hs).2 v (List.mem_of_getElem? h)

/-- The context PACK_START opens is legal, in the mode its body asks for (R174). -/
theorem openContext_wf (p : Params) (ov : PartialRecord) (body : Bytes) (now : Nat) :
    (openContext p ov body now).wf = true := by
  by_cases hb : body.length < 1024
  · simp [Context.wf, openContext, modeOf, hb]
  · simp [Context.wf, openContext, modeOf, hb, Nat.le_of_not_lt hb]

/-- An emission moves the cursor of a legal context to a legal one (R175). -/
theorem emitPacket_keeps_wf {ctx ctx' : Context} {seq : BitVec 24} {p : Bytes}
    (hw : ctx.wf = true) (h : emitPacket ctx seq = .ok (p, ctx')) : ctx'.wf = true := by
  obtain ⟨hd, _, ⟨hm, _, rfl⟩ | ⟨hm, _, _, rfl⟩⟩ := emitPacket_eq_ok h
  · simp only [Context.wf, hm, Bool.and_eq_true, decide_eq_true_eq, beq_iff_eq] at hw ⊢
    omega
  · simp only [Context.wf, hm, Bool.and_eq_true, decide_eq_true_eq, beq_iff_eq] at hw ⊢
    omega

/-- Where only the counter, the issuer, the inbox or the outbox changes, the slots and so the invariant
are the same. -/
theorem exec_keeps_inv {i : Instr} {s t : State} (hs : s.inv = true) (h : exec i s = .next t) :
    t.inv = true := by
  rcases exec_next_cases h with ⟨_, st, r, rfl⟩ | ⟨_, rfl⟩ | ⟨ov, body, now, v, _, _, rfl⟩ |
    ⟨_, ⟨_, rfl⟩ | ⟨_, rfl⟩ | ⟨ctx, _, _, rfl⟩ | ⟨ctx, st, _, _, _, rfl⟩ | ⟨ctx, p, ctx', hc, _, he, rfl⟩⟩
  · exact hs
  · exact hs
  · exact State.inv_setSlot _ hs (openContext_wf ..)
  · exact hs
  · exact hs
  · exact State.inv_setSlot _ hs rfl
  · exact State.inv_setSlot (s := s.advanceSeq) _ hs rfl
  · have hw : ctx.wf = true := State.wf_of_slot? hs hc
    exact State.inv_setSlot (s := s.advanceSeq) _ hs (emitPacket_keeps_wf hw he)

theorem step_keeps_inv {s t : State} (hs : s.inv = true) (h : step s = .next t) : t.inv = true := by
  rcases step_next_cases h with ⟨_, rfl⟩ | ⟨es, _, rfl⟩ | ⟨r, es, _, _, _, rfl⟩ | ⟨r, es, i, _, _, _, hx⟩
  · exact hs
  · exact State.inv_resetBlock hs
  · exact hs
  · exact exec_keeps_inv (s := s.accept r.client) hs hx

/-! ### A run over the whole inbox -/

theorem commandClients_cons (e : Event) (es : List Event) :
    commandClients (e :: es) = commandClients [e] ++ commandClients es := by
  cases e <;> rfl

/-- Every event of a well-formed inbox is performed, by induction over the inbox: the step on its first
event completes, and leaves a legal state whose inbox is the rest (R5, R259). -/
theorem run_serves_inbox {es : List Event} {s : State} (hb : s.inbox = es) (hs : s.inv = true)
    (hw : s.inboxWf = true) :
    ∃ t, Host.Core.run core es.length s = .next t ∧ t.inbox = [] ∧ t.inv = true ∧
      t.outbox.map Response.client = s.outbox.map Response.client ++ commandClients es := by
  induction es generalizing s with
  | nil => exact ⟨s, run_zero s, hb, hs, by simp [commandClients]⟩
  | cons e es ih =>
    simp only [State.inboxWf, hb, List.all_cons, Bool.and_eq_true] at hw
    obtain ⟨he, hes⟩ := hw
    obtain ⟨u, hu⟩ := step_completes hb he
    obtain ⟨hub, _, hun, huo⟩ := step_next_frame hu
    simp only [hb, List.tail_cons, List.take_succ_cons, List.take_zero] at hub huo
    have huw : u.inboxWf = true := by rw [State.inboxWf, hub, hun]; exact hes
    obtain ⟨t, hrun, htb, hti, hto⟩ := ih hub (step_keeps_inv hs hu) huw
    refine ⟨t, (run_succ_of_next hu).trans hrun, htb, hti, ?_⟩
    rw [hto, huo, commandClients_cons e es, List.append_assoc]

/-! ### The obligations -/

/-- Settles O21, by induction over the inbox from every legal state. -/
theorem everyRequestIsServed : Obligations.EveryRequestIsServed :=
  fun _ hs hw => run_serves_inbox rfl hs hw

/-- Settles O10, from what a request can come to; an empty inbox and a reset never stop the step. -/
theorem stepStopsOnlyOnImpossibleRequests : Obligations.StepStopsOnlyOnImpossibleRequests := by
  intro s
  cases hb : s.inbox with
  | nil => simp [step, hb]
  | cons e es =>
    cases e with
    | reset => simp [step_of_reset hb]
    | command r =>
      rw [step_of_command hb, perform_faults_iff, perform_refuses_iff]
      simp

/-- Settles O16, from the form of the state an instruction completes in. -/
theorem oneResponseToTheIssuer : Obligations.OneResponseToTheIssuer := by
  intro i s t h
  obtain ⟨q, sl, st, r, hlen, rfl⟩ := exec_next_eq_respond h
  exact ⟨⟨st, r, rfl⟩, rfl, rfl, rfl, hlen⟩

/-- Settles O7, from the step on a command and the decoded request. -/
theorem stepPerformsDecodedCommand : Obligations.StepPerformsDecodedCommand := by
  intro s r es i hb hc hd
  rw [step_of_command hb, perform_of_decode_ok hc hd, State.accept_eq hb]

end Sys2Proof.Machine
end

section
/-! PROOFS. What a legal context says, what an instruction reads and writes of the slots and of the
counter, and the obligations on them (10_state.md R20 to R28; 42_sequence.md R163). -/

namespace Sys2Proof.Machine

/-! ### Legal contexts, one equation for each mode (R24, R175) -/

theorem Context.wf_iff_of_single {ctx : Context} (hm : ctx.mode = .single) :
    ctx.wf = true ↔ ctx.body.length < 1024 ∧ ctx.index ≤ 1 ∧ ctx.offset = 0 := by
  simp [Context.wf, hm, and_assoc]

theorem Context.wf_iff_of_frag {ctx : Context} (hm : ctx.mode = .frag) :
    ctx.wf = true ↔ 1024 ≤ ctx.body.length ∧ ctx.offset = 1024 * ctx.index := by
  simp [Context.wf, hm]

theorem Context.exhausted_eq_false_iff_of_single {ctx : Context} (hm : ctx.mode = .single) :
    ctx.exhausted = false ↔ ctx.index ≠ 1 := by
  simp [Context.exhausted, hm]

theorem Context.exhausted_eq_false_iff_of_frag {ctx : Context} (hm : ctx.mode = .frag) :
    ctx.exhausted = false ↔ ctx.offset < ctx.body.length := by
  simp [Context.exhausted, hm]

/-- An emission moves the cursor only (R175). -/
theorem emitPacket_keeps_record {ctx ctx' : Context} {seq : BitVec 24} {p : Bytes}
    (h : emitPacket ctx seq = .ok (p, ctx')) :
    ctx'.hdr = ctx.hdr ∧ ctx'.body = ctx.body ∧ ctx'.mode = ctx.mode := by
  obtain ⟨_, _, ⟨_, _, rfl⟩ | ⟨_, _, _, rfl⟩⟩ := emitPacket_eq_ok h
  · exact ⟨rfl, rfl, rfl⟩
  · exact ⟨rfl, rfl, rfl⟩

/-! ### What an instruction reads and writes of the block -/

/-- The slot a write leaves at its own index; where there is no such client there is still none. -/
theorem State.slot?_setSlot_self (s : State) (c : Nat) (v : Slot) :
    (s.setSlot c v).slot? c = (s.slot? c).map fun _ => v := List.getElem?_set_self'

@[simp] theorem State.slot?_respond (s : State) (st : Status) (r : Result) (c : Nat) :
    (s.respond st r).slot? c = s.slot? c := rfl

@[simp] theorem State.slot?_raise (s : State) (st : Status) (c : Nat) :
    (s.raise st).slot? c = s.slot? c := rfl

@[simp] theorem State.slot?_advanceSeq (s : State) (c : Nat) : s.advanceSeq.slot? c = s.slot? c := rfl

/-- The writes of one instruction: the counter moves by `d`, and the issuer's slot gets a new value where
`w` holds one. -/
def State.effect (s : State) (d : BitVec 24) : Option Slot → State
  | none => { s with seq := s.seq + d }
  | some v => { s with seq := s.seq + d }.setSlot s.issuer v

@[simp] theorem State.effect_seq (s : State) (d : BitVec 24) (w : Option Slot) :
    (s.effect d w).seq = s.seq + d := by
  cases w <;> rfl

@[simp] theorem State.effect_issuer (s : State) (d : BitVec 24) (w : Option Slot) :
    (s.effect d w).issuer = s.issuer := by
  cases w <;> rfl

@[simp] theorem State.effect_outbox (s : State) (d : BitVec 24) (w : Option Slot) :
    (s.effect d w).outbox = s.outbox := by
  cases w <;> rfl

/-- The issuer's slot after the writes is the one before, or the value written. -/
theorem State.slot?_effect_issuer (s : State) (d : BitVec 24) (w : Option Slot) :
    (s.effect d w).slot? s.issuer = (s.slot? s.issuer).map fun v => w.getD v := by
  cases w with
  | none => simp [State.effect, State.slot?]
  | some v => exact State.slot?_setSlot_self _ _ _

theorem State.slot?_effect_other {s : State} {c : Nat} (d : BitVec 24) (w : Option Slot)
    (hc : c ≠ s.issuer) : (s.effect d w).slot? c = s.slot? c := by
  cases w with
  | none => rfl
  | some v => exact State.slot?_setSlot_other _ _ _ _ hc.symm

theorem State.effect_zero_none (s : State) : s.effect 0 none = s := by
  simp [State.effect]

/-- The two states look the same to an instruction of the issuer: the same counter, parameters, issuer,
and slot of that issuer (R22, R28). -/
structure State.SameView (s s' : State) : Prop where
  seq    : s'.seq = s.seq
  params : s'.params = s.params
  issuer : s'.issuer = s.issuer
  slot   : s'.slot? s'.issuer = s.slot? s.issuer

/-- Locality: what an instruction writes and answers is fixed by the counter, the parameters, the issuer
and the issuer's slot, and it writes nothing but the counter and that slot. -/
theorem exec_local {i : Instr} {s t : State} (h : exec i s = .next t) :
    ∃ d w st r, ∀ s', s.SameView s' → exec i s' = .next ((s'.effect d w).respond st r) := by
  rcases exec_next_cases h with ⟨hi, _⟩ | ⟨rfl, _⟩ | ⟨ov, body, now, v, rfl, hs, _⟩ |
    ⟨rfl, ⟨hs, _⟩ | ⟨hs, _⟩ | ⟨ctx, hs, hx, _⟩ | ⟨ctx, st, hs, hx, he, _⟩ | ⟨ctx, p, ctx', hs, hx, he, _⟩⟩
  · obtain ⟨st, r, hr⟩ := exec_pure i hi
    exact ⟨0, none, st, r, fun s' _ => by rw [State.effect_zero_none]; exact hr s'⟩
  · exact ⟨1, none, .ok, .nat32 (s.seq.setWidth 32), fun s' ⟨hq, _, _, _⟩ => by rw [← hq]; rfl⟩
  · refine ⟨0, some (.active (openContext s.params ov body now)), .ok, .none, fun s' ⟨_, hp, _, hs'⟩ => ?_⟩
    rw [← hp]
    simp [exec, execPackStart, hs', hs, State.effect]
  · refine ⟨0, none, .noStream, .none, fun s' ⟨_, _, _, hs'⟩ => ?_⟩
    simp [exec, execPackNext, hs', hs, State.effect, State.raise]
  · refine ⟨0, none, .endOfStream, .none, fun s' ⟨_, _, _, hs'⟩ => ?_⟩
    simp [exec, execPackNext, hs', hs, State.effect]
  · refine ⟨0, some .done, .endOfStream, .none, fun s' ⟨_, _, _, hs'⟩ => ?_⟩
    simp [exec, execPackNext, hs', hs, hx, State.effect]
  · refine ⟨1, some .done, st, .none, fun s' ⟨hq, _, _, hs'⟩ => ?_⟩
    simp [exec, execPackNext, hs', hs, hx, hq, he, State.effect, State.raise, State.advanceSeq]
  · refine ⟨1, some (.active ctx'), .ok, .packet p, fun s' ⟨hq, _, _, hs'⟩ => ?_⟩
    simp [exec, execPackNext, hs', hs, hx, hq, he, State.effect, State.advanceSeq]

/-- The state an instruction completes in is that of its writes and its response, and every state with
the same view completes alike. -/
theorem exec_next_eq_effect {i : Instr} {s t : State} (h : exec i s = .next t) :
    ∃ d w st r, (∀ s', s.SameView s' → exec i s' = .next ((s'.effect d w).respond st r)) ∧
      t = (s.effect d w).respond st r := by
  obtain ⟨d, w, st, r, hl⟩ := exec_local h
  have hs := hl s ⟨rfl, rfl, rfl, rfl⟩
  exact ⟨d, w, st, r, hl, Host.Outcome.next.inj (h.symm.trans hs)⟩

theorem exec_slot?_other {i : Instr} {s t : State} {c : Nat} (h : exec i s = .next t)
    (hc : c ≠ s.issuer) : t.slot? c = s.slot? c := by
  obtain ⟨d, w, st, r, _, rfl⟩ := exec_next_eq_effect h
  exact State.slot?_effect_other d w hc

/-! ### An open stream -/

/-- Only PACK_START replaces the record, the body or the mode of its issuer's open stream: an emission
moves the cursor, every other way PACK_NEXT completes leaves the slot or closes it (R171, R175). -/
theorem exec_keeps_issuer_record {i : Instr} {s t : State} {ctx ctx' : Context} (h : exec i s = .next t)
    (hs : s.slot? s.issuer = some (.active ctx)) (ht : t.slot? s.issuer = some (.active ctx'))
    (hi : ∀ ov body now, i ≠ .packStart ov body now) :
    ctx'.hdr = ctx.hdr ∧ ctx'.body = ctx.body ∧ ctx'.mode = ctx.mode := by
  have unchanged (e : t.slot? s.issuer = s.slot? s.issuer) :
      ctx'.hdr = ctx.hdr ∧ ctx'.body = ctx.body ∧ ctx'.mode = ctx.mode := by
    rw [e, hs] at ht
    cases ht
    exact ⟨rfl, rfl, rfl⟩
  rcases exec_next_cases h with ⟨_, st, r, rfl⟩ | ⟨_, rfl⟩ | ⟨ov, body, now, _, rfl, _, _⟩ |
    ⟨_, ⟨_, rfl⟩ | ⟨_, rfl⟩ | ⟨_, _, _, rfl⟩ | ⟨_, st, _, _, _, rfl⟩ | ⟨c, p, c', hc, _, he, rfl⟩⟩
  · exact unchanged rfl
  · exact unchanged rfl
  · exact absurd rfl (hi ov body now)
  · exact unchanged rfl
  · exact unchanged rfl
  · simp [State.slot?_setSlot_self, hs] at ht
  · simp [State.slot?_setSlot_self, hs] at ht
  · obtain rfl : c = ctx := by simpa [hs] using hc.symm
    obtain rfl : c' = ctx' := by simpa [State.slot?_setSlot_self, hs] using ht
    exact emitPacket_keeps_record he

/-! ### The counter -/

/-- The instruction takes a value of `SEQ` when it is executed in the state (R163). -/
def execTakes (i : Instr) (s : State) : Bool :=
  match i, s.slot? s.issuer with
  | .seqNext, _ => true
  | .packNext, some (.active ctx) => !ctx.exhausted
  | _, _ => false

theorem execTakes_of_isPure {i : Instr} (s : State) (hi : i.isPure = true) : execTakes i s = false := by
  cases i with
  | seqNext => cases hi
  | packStart => cases hi
  | packNext => cases hi
  | crc16 | crc32 | verEnc | verDec | flgEnc | flgDec | hdrEnc | hdrDec | unpack => rfl

/-- A command takes a value exactly where its instruction does, executed for its client. -/
theorem takesValue_of_decode_ok {s : State} {r : Request} {es : List Event} {i : Instr}
    (hb : s.inbox = .command r :: es) (hd : decode r.command = .ok i) :
    takesValue s = execTakes i (s.accept r.client) := by
  have hslot : (s.accept r.client).slot? (s.accept r.client).issuer = s.slot? r.client := rfl
  simp only [takesValue, hb, hd, execTakes, hslot]
  cases i with
  | packNext => rcases s.slot? r.client with _ | _ | _ | _ <;> rfl
  | seqNext => rfl
  | crc16 | crc32 | verEnc | verDec | flgEnc | flgDec | hdrEnc | hdrDec | packStart | unpack => rfl

theorem exec_seq {i : Instr} {s t : State} (h : exec i s = .next t) :
    t.seq = if execTakes i s then s.seq + 1 else s.seq := by
  rcases exec_next_cases h with ⟨hi, st, r, rfl⟩ | ⟨rfl, rfl⟩ | ⟨ov, body, now, _, rfl, _, rfl⟩ |
    ⟨rfl, ⟨hs, rfl⟩ | ⟨hs, rfl⟩ | ⟨ctx, hs, hx, rfl⟩ | ⟨ctx, st, hs, hx, _, rfl⟩ |
      ⟨ctx, p, ctx', hs, hx, _, rfl⟩⟩
  · simp [execTakes_of_isPure s hi]
  · rfl
  · rfl
  · simp [execTakes, hs]
  · simp [execTakes, hs]
  · simp [execTakes, hs, hx]
  · simp [execTakes, hs, hx]
  · simp [execTakes, hs, hx]

/-! ### The obligations -/

/-- Settles O11, from the step lemma for the invariant. -/
theorem stepKeepsSlotInvariants : Obligations.StepKeepsSlotInvariants :=
  fun _ _ hs h => step_keeps_inv hs h

/-- Settles O13, mode by mode. -/
theorem legalContextShape : Obligations.LegalContextShape := by
  intro ctx hw
  cases hm : ctx.mode with
  | single =>
    obtain ⟨hb, hi, _⟩ := (Context.wf_iff_of_single hm).mp hw
    have hx := Context.exhausted_eq_false_iff_of_single hm
    exact ⟨iff_of_true rfl hb, nofun, fun _ => hx.trans (by omega)⟩
  | frag =>
    obtain ⟨hb, ho⟩ := (Context.wf_iff_of_frag hm).mp hw
    have hx := Context.exhausted_eq_false_iff_of_frag hm
    exact ⟨iff_of_false nofun (by omega), fun _ => ⟨ho, hx⟩, nofun⟩

/-- Settles O14: another client's slot is not written, and the issuer's own stream keeps its record. -/
theorem openStreamKeepsItsRecord : Obligations.OpenStreamKeepsItsRecord := by
  intro i s t c ctx ctx' h hs ht hi
  by_cases hc : c = s.issuer
  · subst hc
    exact exec_keeps_issuer_record h hs ht (hi rfl)
  · rw [exec_slot?_other h hc, hs] at ht
    cases ht
    exact ⟨rfl, rfl, rfl⟩

/-- Settles O15, from what a step leaves of the interface. -/
theorem parametersNeverChange : Obligations.ParametersNeverChange := by
  intro s t h
  obtain ⟨_, hp, hn, _⟩ := step_next_frame h
  exact ⟨hp, hn⟩

/-- Settles O19, from the locality of an instruction. -/
theorem slotsArePrivate : Obligations.SlotsArePrivate := by
  refine ⟨fun i s t c h hc => exec_slot?_other h hc, ?_⟩
  intro i s s' t t' h h' hq hp hi hs
  obtain ⟨d, w, st, r, hl, rfl⟩ := exec_next_eq_effect h
  have hv : s.SameView s' := ⟨hq, hp, hi, by rw [hi, hs]⟩
  obtain rfl := Host.Outcome.next.inj (h'.symm.trans (hl s' hv))
  refine ⟨?_, ?_, st, r, by simp, by simp [hi]⟩
  · simp [BitVec.add_comm s.seq d]
  · have e := State.slot?_effect_issuer s' d w
    rw [hi, hs] at e
    exact e.trans (State.slot?_effect_issuer s d w).symm

/-- Settles O40: with no event, and for a reserved byte, no value is taken and `SEQ` stays; the step on an
instruction moves `SEQ` exactly where the instruction takes a value. -/
theorem onlyTakersMoveTheCounter : Obligations.OnlyTakersMoveTheCounter := by
  intro s t hr h
  rcases step_next_cases h with ⟨hb, rfl⟩ | ⟨es, hb, _⟩ | ⟨r, es, hb, _, hd, rfl⟩ | ⟨r, es, i, hb, _, hd, hx⟩
  · simp [takesValue, hb]
  · simp [hb] at hr
  · simp [takesValue, hb, hd]
  · rw [takesValue_of_decode_ok hb hd]
    exact exec_seq hx

end Sys2Proof.Machine
end

section
/-! PROOFS. Byte order, the pure commands beside any other command, and the obligations on them
(20_memory.md R41, R42, R46, R49). -/

namespace Sys2Proof

/-! ### Big-endian integers -/

@[simp] theorem byteAt_cons_zero (b : Byte) (d : Bytes) : byteAt (b :: d) 0 = b := rfl

@[simp] theorem byteAt_cons_succ (b : Byte) (d : Bytes) (i : Nat) :
    byteAt (b :: d) (i + 1) = byteAt d i := rfl

/-- The sum of R42, the most significant byte first. -/
theorem fromBE_eq_sum (d : Bytes) : fromBE d =
    ((List.range d.length).map fun i => (byteAt d i).toNat * 2 ^ (8 * (d.length - 1 - i))).sum := by
  induction d with
  | nil => rfl
  | cons b d ih =>
    have exponent (i : Nat) : d.length - 1 - i = d.length - i.succ := by omega
    rw [fromBE, ih, List.length_cons, List.range_succ_eq_map, List.map_cons, List.sum_cons, List.map_map]
    simp only [Function.comp_def, byteAt_cons_zero, byteAt_cons_succ, exponent, Nat.add_sub_cancel,
      Nat.sub_zero]

/-- The bytes of R41. -/
theorem byteAt_beBytes (n v i : Nat) (hi : i < n) :
    (byteAt (beBytes n v) i).toNat = (v >>> (8 * (n - 1 - i))) % 256 := by
  induction n generalizing i with
  | zero => omega
  | succ n ih =>
    cases i with
    | zero => simp [beBytes]
    | succ i =>
      have shift : n + 1 - 1 - (i + 1) = n - 1 - i := by omega
      rw [beBytes, byteAt_cons_succ, ih i (by omega), shift]

/-- The encoding keeps the low `8n` bits. -/
theorem fromBE_beBytes (n v : Nat) : fromBE (beBytes n v) = v % 2 ^ (8 * n) := by
  induction n with
  | zero => simp [beBytes, fromBE, Nat.mod_one]
  | succ n ih =>
    have split : v % 2 ^ (8 * (n + 1)) = v % 2 ^ (8 * n) + 2 ^ (8 * n) * (v / 2 ^ (8 * n) % 2 ^ 8) := by
      rw [Nat.mul_succ, Nat.pow_add, Nat.mod_mul]
    rw [beBytes, fromBE, ih, beBytes_length, BitVec.toNat_ofNat, Nat.shiftRight_eq_div_pow, split,
      Nat.mul_comm, Nat.add_comm]

/-- Settles O6, from the two inductions and the length of an encoding. -/
theorem bigEndianRoundTrip : Obligations.BigEndianRoundTrip := by
  refine ⟨fromBE_eq_sum, fun n v => ⟨beBytes_length n v, byteAt_beBytes n v, fun hv => ?_⟩⟩
  rw [fromBE_beBytes, Nat.mod_eq_of_lt hv]

namespace Machine

/-! ### A response given before a command -/

theorem State.sameView_respond (s : State) (st : Status) (r : Result) : s.SameView (s.respond st r) :=
  ⟨rfl, rfl, rfl, rfl⟩

theorem State.effect_respond_slots (s : State) (st : Status) (r : Result) (d : BitVec 24)
    (w : Option Slot) : ((s.respond st r).effect d w).slots = (s.effect d w).slots := by
  cases w <;> rfl

/-- Settles O20: a pure command leaves the next command's view of the state as it was, so that command
writes and answers the same. -/
theorem pureCommandsCommute : Obligations.PureCommandsCommute := by
  intro i hi
  obtain ⟨st, r, hr⟩ := exec_pure i hi
  refine ⟨st, r, hr, fun j s t u v hj hu hv => ?_⟩
  obtain rfl := Host.Outcome.next.inj ((hr s).symm.trans hu)
  obtain ⟨d, w, st', r', hl, rfl⟩ := exec_next_eq_effect hj
  obtain rfl := Host.Outcome.next.inj ((hl _ (s.sameView_respond st r)).symm.trans hv)
  exact ⟨by simp, by simp [State.effect_respond_slots], st', r', by simp, by simp⟩

end Machine

end Sys2Proof
end

section
/-! PROOFS. The decoder on every command, the statuses of every answer, and the obligations on them
(30_encoding.md R60 to R63, R80). -/

namespace Sys2Proof

/-! ### The decoder (R60 to R62) -/

/-- Decoding is the byte's opcode, then its operands. -/
theorem decode_of_decodeByte_some {b : Byte} {o : Opcode} (v : Operands) (h : decodeByte b = some o) :
    decode ⟨b, v⟩ = bindOperands o v := by
  simp [decode, h]

theorem decode_of_decodeByte_none {b : Byte} (v : Operands) (h : decodeByte b = none) :
    decode ⟨b, v⟩ = .error .illegalCommand := by
  simp [decode, h]

@[simp] theorem decode_encode (i : Instr) : decode (encode i) = .ok i := by
  rw [encode, decode_of_decodeByte_some i.operands (decodeByte_byte i.opcode)]
  exact (bindOperands_eq_ok_iff _ _ _).mpr ⟨rfl, rfl⟩

/-- A command is answered IllegalCommand for its byte alone. -/
theorem decode_eq_illegal_iff (c : Command) :
    decode c = .error .illegalCommand ↔ decodeByte c.byte = none := by
  refine ⟨fun h => ?_, decode_of_decodeByte_none c.operands⟩
  cases hd : decodeByte c.byte with
  | none => rfl
  | some o =>
    rw [decode_of_decodeByte_some c.operands hd] at h
    exact absurd h (bindOperands_ne_illegal _ _)

/-- The reserved bytes of R62, over all 256 bytes. -/
theorem decodeByte_eq_none_iff (b : Byte) : decodeByte b = none ↔
    (b.toNat % 16 = 0x0 ∨ b.toNat % 16 = 0xD ∨ b.toNat % 16 = 0xE ∨ b.toNat % 16 = 0xF) ∨
      b.toNat / 16 ≠ 0 := by
  revert b; decide

/-- A command decodes to an instruction unless it is illegal or its operands do not fit. -/
theorem exists_decode_ok_iff (c : Command) :
    (∃ i, decode c = .ok i) ↔
      decode c ≠ .error .illegalCommand ∧ decode c ≠ .error .operandMismatch := by
  cases hd : decode c with
  | ok i => simp
  | error e => cases e <;> simp

/-- A command is well formed where it is issuable and its byte is not reserved. -/
theorem wf_iff_legal_and_issuable (c : Command) :
    c.wf = true ↔ decode c ≠ .error .illegalCommand ∧ c.issuable = true := by
  rw [ne_eq, decode_eq_illegal_iff, ← ne_eq, Option.ne_none_iff_isSome,
    ← byte_checks_iff c.byte c.operands]
  cases hr : c.rsvZero <;> cases hl : c.opLegal <;> simp [Command.wf, Command.issuable, hr, hl]

namespace Machine

/-! ### A request with a reserved byte (R62) -/

theorem perform_of_decode_illegal {r : Request} {s : State} (hc : r.client < s.nClients)
    (hd : decode r.command = .error .illegalCommand) :
    perform r s = .next ((s.accept r.client).raise .illegalCommand) := by
  simp [perform, hc, hd, performIllegal]

/-! ### The statuses of the pure commands (R80) -/

theorem hdrDecode_eq_error {d : Bytes} {st : Status} (h : hdrDecode d = .error st) :
    st = .invalidHeaderLength ∨ st = .headerIntegrityError := by
  unfold hdrDecode at h
  split at h
  · cases h; exact .inl rfl
  · split at h
    · cases h; exact .inr rfl
    · cases h

/-- UNPACK fails with its own two statuses or as HDR_DEC does on the first 40 bytes (R181). -/
theorem unpackPacket_eq_error {p : Bytes} {st : Status} (h : unpackPacket p = .error st) :
    st = .invalidPacketLength ∨ st = .bodyIntegrityError ∨ hdrDecode (slice p 0 40) = .error st := by
  unfold unpackPacket at h
  split at h
  · cases h; exact .inl rfl
  · split at h
    · cases h; exact .inr (.inl rfl)
    · cases hd : hdrDecode (slice p 0 40) with
      | ok F => simp [hd, bind, Except.bind, pure, Except.pure] at h
      | error e => simp [hd, bind, Except.bind] at h; exact .inr (.inr (by rw [h]))

theorem error_of_map_eq_error {α β : Type} {f : α → β} {x : Except Status α} {st : Status}
    (h : x.map f = .error st) : x = .error st := by
  cases x with
  | ok a => cases h
  | error e => cases h; rfl

theorem isFailure_of_hdrDecode_eq_error {d : Bytes} {st : Status} (h : hdrDecode d = .error st) :
    st.isFailure = true := by
  obtain rfl | rfl := hdrDecode_eq_error h
  · rfl
  · rfl

/-- A pure command answers a value or one of the failures, the same in every state (R80, R211). -/
theorem exec_pure_eq_answer {i : Instr} (hi : i.isPure = true) :
    ∃ x : Except Status Result, (∀ st, x = .error st → st.isFailure = true) ∧
      ∀ s, exec i s = .next (s.answer x) := by
  cases i with
  | seqNext => cases hi
  | packStart => cases hi
  | packNext => cases hi
  | crc16 | crc32 | verDec | flgEnc | flgDec => exact ⟨.ok _, nofun, fun _ => rfl⟩
  | verEnc major minor =>
    by_cases h : major > maxMajor
    · refine ⟨.error (.fieldRange 0), fun st hst => ?_, fun s => ?_⟩
      · cases hst; rfl
      · simp [exec, execVerEnc, h, HeaderField.index]
    · exact ⟨.ok _, nofun, fun s => by simp only [exec, execVerEnc, h, if_false]; rfl⟩
  | hdrEnc F =>
    refine ⟨(hdrEncode F).map .header, fun st hx => ?_, fun _ => rfl⟩
    obtain ⟨x, rfl | rfl⟩ := hdrEncode_eq_error (error_of_map_eq_error hx)
    · rfl
    · rfl
  | hdrDec d =>
    exact ⟨(hdrDecode d).map .fields,
      fun st hx => isFailure_of_hdrDecode_eq_error (error_of_map_eq_error hx), fun _ => rfl⟩
  | unpack p =>
    refine ⟨(unpackPacket p).map fun (F, body) => .unpacked F body, fun st hx => ?_, fun _ => rfl⟩
    obtain rfl | rfl | hd := unpackPacket_eq_error (error_of_map_eq_error hx)
    · rfl
    · rfl
    · exact isFailure_of_hdrDecode_eq_error hd

/-- A pure command answers OK or a failure, so never END. -/
theorem exec_pure_ne_end {i : Instr} (s : State) (r : Result) (hi : i.isPure = true) :
    exec i s ≠ .next (s.respond .endOfStream r) := by
  obtain ⟨x, hx, ha⟩ := exec_pure_eq_answer hi
  rw [ha s]
  intro h
  have ho := congrArg State.outbox (Host.Outcome.next.inj h)
  cases x with
  | ok v => simp at ho
  | error st =>
    obtain ⟨rfl, _⟩ : st = .endOfStream ∧ Result.none = r := by simpa using ho
    exact absurd (hx _ rfl) (by decide)

/-! ### The obligations -/

/-- Settles O1: the twelve commands are encodings, and the four other bytes decode to no opcode. -/
theorem commandBytesDecode : Obligations.CommandBytesDecode :=
  ⟨fun d => decode_encode (.crc16 d), fun d => decode_encode (.crc32 d),
    fun major minor => decode_encode (.verEnc major minor), fun v => decode_encode (.verDec v),
    fun a b f => decode_encode (.flgEnc a b f), fun x => decode_encode (.flgDec x),
    fun F => decode_encode (.hdrEnc F), fun d => decode_encode (.hdrDec d), decode_encode .seqNext,
    fun ov body now => decode_encode (.packStart ov body now), decode_encode .packNext,
    fun p => decode_encode (.unpack p),
    fun v => ⟨decode_of_decodeByte_none v (by decide), decode_of_decodeByte_none v (by decide),
      decode_of_decodeByte_none v (by decide), decode_of_decodeByte_none v (by decide)⟩⟩

/-- Settles O3, from the reserved bytes and the step on a command. -/
theorem reservedBytesAnswerIllegal : Obligations.ReservedBytesAnswerIllegal := by
  refine ⟨fun b v => (decode_eq_illegal_iff ⟨b, v⟩).trans (decodeByte_eq_none_iff b), ?_⟩
  intro s r es hb hc hd
  rw [step_of_command hb, perform_of_decode_illegal hc hd, State.accept_eq hb]
  rfl

/-- Settles O4, from what decoding can come to. -/
theorem wellFormedCommandsDecode : Obligations.WellFormedCommandsDecode := by
  intro c
  have hi := issuable_iff_decode_ne_mismatch c
  exact ⟨by rw [wf_iff_legal_and_issuable, exists_decode_ok_iff, hi], hi⟩

/-- Settles O5, status by status. -/
theorem statusCodesFollowTheTable : Obligations.StatusCodesFollowTheTable := by
  refine ⟨rfl, rfl, fun _ => ⟨rfl, rfl⟩, rfl, rfl, rfl, rfl, rfl, rfl, rfl, rfl, fun _ => ⟨rfl, rfl⟩,
    rfl, rfl, rfl, rfl, rfl, rfl, fun st => ?_⟩
  rw [Status.isFailure, Bool.and_eq_true, decide_eq_true_eq, decide_eq_true_eq]

/-- Settles O17, from the ways an instruction completes. -/
theorem endOfStreamCarriesNothing : Obligations.EndOfStreamCarriesNothing := by
  rintro i s t r ⟨h, ho⟩
  rcases exec_next_cases h with ⟨hi, st, r', rfl⟩ | ⟨_, rfl⟩ | ⟨ov, body, now, v, _, _, rfl⟩ |
    ⟨rfl, ⟨_, rfl⟩ | ⟨_, rfl⟩ | ⟨ctx, _, _, rfl⟩ | ⟨ctx, st, _, _, he, rfl⟩ | ⟨ctx, p, ctx', _, _, _, rfl⟩⟩
  · obtain ⟨rfl, rfl⟩ : st = .endOfStream ∧ r' = r := by simpa using ho
    exact absurd h (exec_pure_ne_end s r' hi)
  · simp at ho
  · simp at ho
  · simp at ho
  · exact ⟨rfl, by simpa [eq_comm] using ho, rfl⟩
  · exact ⟨rfl, by simpa [eq_comm] using ho, rfl⟩
  · obtain ⟨k, rfl | rfl⟩ := emitPacket_eq_error he
    · simp at ho
    · simp at ho
  · simp at ho

end Machine

end Sys2Proof
end

section
/-! PROOFS. The header layout on the wire, the bounds of decoded fields, and the obligations on them
(30_encoding.md R64 to R67, R74; 41_header_codec.md R121, R124, R126). -/

namespace Sys2Proof

/-! ### The two packed bytes, as numbers (R66, R67) -/

/-- The version byte is the byte of the number on the wire. -/
theorem versionByte_eq (R : FullRecord) :
    [versionByte R.protVer.major R.protVer.minor] = beBytes 1 (R.wire .protVer) := by
  have hlow (n : Nat) : n &&& 0xF = n % 16 := Nat.and_two_pow_sub_one_eq_mod n 4
  have hlt : R.protVer.minor % 16 < 2 ^ 4 := Nat.mod_lt _ (by decide)
  rw [versionByte, hlow, ← Nat.shiftLeft_add_eq_or_of_lt hlt, Nat.shiftLeft_eq, Nat.mul_comm]
  rfl

/-- The flags byte is the byte of the number on the wire, which is cut to a byte already. -/
theorem flagsByte_eq (R : FullRecord) :
    [flagsByte R.flags.a R.flags.b R.flags.f] = beBytes 1 (R.wire .flags) := by
  have hcut (n : Nat) : BitVec.ofNat 8 (n % 256) = BitVec.ofNat 8 n := by
    simp [← BitVec.toNat_inj]
  simp [flagsByte, beBytes, FullRecord.wire, Nat.shiftLeft_eq, Nat.mul_comm, hcut]

theorem versionMajorRaw_eq (v : Byte) : versionMajorRaw v = 16 * (v.toNat / 16) := by
  revert v; decide

theorem versionMinor_eq (v : Byte) : versionMinor v = v.toNat % 16 := by
  revert v; decide

theorem decodeFlags_a (x : Byte) : (decodeFlags x).a = x.toNat / 32 := by
  revert x; decide

theorem decodeFlags_b (x : Byte) : (decodeFlags x).b = x.toNat / 4 % 8 := by
  revert x; decide

/-! ### The layout of an encoded header (R64, R65) -/

/-- The fields in the order of their offsets (R64). -/
def HeaderField.layout : List HeaderField :=
  [.protVer, .flags, .lenBody, .time, .msgMjType, .msgMiType, .sndSession, .sUniqid, .extHeader,
   .respSession, .rUniqid, .sndSeq, .respSeq]

/-- A header's first 38 bytes are its fields, each big-endian, in the order of their offsets. -/
theorem header38_eq_layout (R : FullRecord) :
    header38 R = HeaderField.layout.flatMap fun x => beBytes x.bytes (R.wire x) := by
  rw [header38, versionByte_eq, flagsByte_eq]
  simp [HeaderField.layout, HeaderField.bytes, FullRecord.wire]

/-- A field's offset is the length of the fields before it. -/
theorem layout_split (x : HeaderField) : ∃ before after,
    HeaderField.layout = before ++ x :: after ∧ (before.map HeaderField.bytes).sum = x.offset := by
  refine ⟨HeaderField.layout.takeWhile (· != x), (HeaderField.layout.dropWhile (· != x)).tail, ?_⟩
  cases x <;> decide

/-- What stands between two other parts of a sequence. -/
theorem slice_append_middle (a b c : Bytes) : slice (a ++ (b ++ c)) a.length (a.length + b.length) = b := by
  rw [slice_append_right a _ _ _ (Nat.le_refl _), Nat.sub_self, Nat.add_sub_cancel_left,
    slice_append_left b c _ _ (Nat.le_refl _)]
  exact slice_all b _ rfl

theorem slice_encodeHeader_of_le (R : FullRecord) {i j : Nat} (hj : j ≤ 38) :
    slice (encodeHeader R) i j = slice (header38 R) i j :=
  slice_append_left _ _ _ _ (by simpa using hj)

/-- Every field stands big-endian at its offset, in as many bytes as the layout gives it (R64). -/
theorem headerBytes_encodeHeader (R : FullRecord) (x : HeaderField) :
    headerBytes (encodeHeader R) x = beBytes x.bytes (R.wire x) := by
  obtain ⟨before, after, hl, ho⟩ := layout_split x
  have hj : x.offset + x.bytes ≤ 38 := by cases x <;> decide
  have hlen : (before.flatMap fun y => beBytes y.bytes (R.wire y)).length = x.offset := by
    simp [List.length_flatMap, ← ho]
  have hmid := slice_append_middle (before.flatMap fun y => beBytes y.bytes (R.wire y))
    (beBytes x.bytes (R.wire x)) (after.flatMap fun y => beBytes y.bytes (R.wire y))
  rw [hlen, beBytes_length] at hmid
  rw [headerBytes, slice_encodeHeader_of_le R hj, header38_eq_layout, hl, List.flatMap_append,
    List.flatMap_cons]
  exact hmid

theorem fromBE_beBytes_of_lt {n v : Nat} (h : v < 2 ^ (8 * n)) : fromBE (beBytes n v) = v := by
  rw [fromBE_beBytes, Nat.mod_eq_of_lt h]

/-- The value a field has on the wire is within the field's width where the record fits. -/
theorem wire_lt {R : FullRecord} {x : HeaderField} (h : R.fitsField x) : R.wire x < 2 ^ x.width := by
  obtain ⟨hmajor, hplain⟩ := h
  cases x with
  | protVer =>
    have hm := hmajor rfl
    simp only [FullRecord.wire, HeaderField.width, HeaderField.bytes]
    omega
  | flags => exact Nat.mod_lt _ (by decide)
  | _ => exact hplain _ rfl

theorem fromBE_headerBytes_encodeHeader {R : FullRecord} {x : HeaderField} (h : R.fitsField x) :
    fromBE (headerBytes (encodeHeader R) x) = R.wire x := by
  rw [headerBytes_encodeHeader]
  exact fromBE_beBytes_of_lt (wire_lt h)

/-- The first 38 bytes, and their CRC-16 behind them (R65). -/
theorem slice_encodeHeader_span (R : FullRecord) : slice (encodeHeader R) 0 38 = header38 R :=
  (slice_encodeHeader_of_le R (Nat.le_refl _)).trans (slice_all _ _ (by simp))

theorem slice_encodeHeader_crc (R : FullRecord) :
    slice (encodeHeader R) 38 40 = beBytes 2 (crc16 (header38 R)).toNat := by
  rw [encodeHeader, slice_append_right (header38 R) _ _ _ (by simp)]
  exact slice_all _ _ (by simp)

/-! ### Decoded fields (R74) -/

theorem hdrDecode_eq_ok {d : Bytes} {r : DecodedRecord} (h : hdrDecode d = .ok r) :
    d.length = 40 ∧ fromBE (slice d 38 40) = (crc16 (slice d 0 38)).toNat ∧ r = decodedFields d := by
  unfold hdrDecode at h
  split at h
  · cases h
  · next hl =>
    split at h
    · cases h
    · next hc =>
      cases h
      exact ⟨of_not_not hl, of_not_not hc, rfl⟩

theorem fromBE_slice_lt (d : Bytes) (i j : Nat) : fromBE (slice d i j) < 2 ^ (8 * (j - i)) := by
  have hlen : (slice d i j).length ≤ j - i := by rw [slice_length]; exact Nat.min_le_left _ _
  exact (fromBE_lt _).trans_le (Nat.pow_le_pow_right (by decide) (Nat.mul_le_mul_left 8 hlen))

/-- Every plain field of a decoded record is within its width (R74): it is read from as many bytes. -/
theorem decodedFields_plain_lt {d : Bytes} {x : HeaderField} {v : Nat}
    (h : (decodedFields d).plain x = some v) : v < 2 ^ x.width := by
  cases x with
  | protVer | flags => cases h
  | msgMjType | msgMiType => cases h; exact BitVec.isLt _
  | _ => cases h; exact fromBE_slice_lt d _ _

namespace Machine

theorem hdrDecode_of_replies {d : Bytes} {s : State} {r : DecodedRecord}
    (h : Replies (.hdrDec d) s .ok (.fields r)) : hdrDecode d = .ok r := by
  cases hd : hdrDecode d with
  | ok r' =>
    obtain ⟨_, hr⟩ := replies_unique h (replies_hdrDec s hd)
    cases hr
    rfl
  | error st =>
    obtain ⟨_, hr⟩ := replies_unique h (replies_hdrDec_error s hd)
    cases hr

/-! ### The obligations -/

/-- Settles O32, from the layout of an encoded header. -/
theorem headerEncodesTheLayout : Obligations.HeaderEncodesTheLayout := by
  refine ⟨fun F => decode_encode (.hdrEnc F), fun R s hR => ?_⟩
  have he : hdrEncode R.toPartial = .ok (encodeHeader R) :=
    (hdrEncode_eq_ok_iff _ _).mpr ⟨R, rfl, hR, rfl⟩
  refine ⟨encodeHeader R, replies_hdrEnc s he, encodeHeader_length R,
    fun x => fromBE_headerBytes_encodeHeader (hR x), ?_⟩
  rw [slice_encodeHeader_span, slice_encodeHeader_crc]

/-- Settles O35, from the bytes each decoded field is read from. -/
theorem decodedFieldsFit : Obligations.DecodedFieldsFit := by
  intro d s r h
  obtain ⟨_, _, rfl⟩ := hdrDecode_eq_ok (hdrDecode_of_replies h)
  have hv : (byteAt d 0).toNat < 256 := BitVec.isLt _
  have hf : (byteAt d 1).toNat < 256 := BitVec.isLt _
  refine ⟨fun x v => decodedFields_plain_lt, ?_⟩
  simp only [decodedFields, decodeVersion, versionMajorRaw_eq, versionMinor_eq, decodeFlags_a,
    decodeFlags_b]
  omega

end Machine

end Sys2Proof
end

section
/-! PROOFS. What PACK_NEXT gives of an open stream, and PACK_ALL as the chain of its emissions
(30_encoding.md R68, R76; 43_packet.md R175 to R180, R184). -/

namespace Sys2Proof.Machine

/-! ### One emission (R175 to R177) -/

theorem emitPacket_of_single {ctx : Context} {seq : BitVec 24} {h : Bytes} (hm : ctx.mode = .single)
    (hh : emitHeader ctx seq = .ok h) :
    emitPacket ctx seq = .ok (framePacket h ctx.body, { ctx with index := 1 }) := by
  simp [emitPacket, hh, Context.packet, hm, bind, Except.bind]

theorem emitPacket_of_frag {ctx : Context} {seq : BitVec 24} {h : Bytes} (hm : ctx.mode = .frag)
    (hi : ctx.index < 2 ^ 32) (hh : emitHeader ctx seq = .ok h) :
    emitPacket ctx seq = .ok (framePacket h (beBytes 4 ctx.index ++ ctx.chunk),
      { ctx with index := ctx.index + 1, offset := ctx.offset + 1024 }) := by
  have hb : fragBody ctx = .ok (beBytes 4 ctx.index ++ ctx.chunk) := if_neg (Nat.not_le_of_lt hi)
  simp [emitPacket, hh, Context.packet, hm, hb, bind, Except.bind, pure, Except.pure]

theorem Context.chunk_length (ctx : Context) :
    ctx.chunk.length = min 1024 (ctx.body.length - ctx.offset) := by
  simp only [Context.chunk, slice_length, Config.chunkMax]
  omega

theorem emitHeader_length {ctx : Context} {seq : BitVec 24} {h : Bytes}
    (hh : emitHeader ctx seq = .ok h) : h.length = 40 := by
  obtain ⟨R, _, _, rfl⟩ := (hdrEncode_eq_ok_iff _ _).mp hh
  exact encodeHeader_length R

/-- A packet is as long as its body with header and footer (R68). -/
theorem emitPacket_length {ctx ctx' : Context} {seq : BitVec 24} {p : Bytes}
    (h : emitPacket ctx seq = .ok (p, ctx')) :
    (ctx.mode = .single → p.length = 44 + ctx.body.length) ∧
    (ctx.mode = .frag → p.length = 48 + min 1024 (ctx.body.length - ctx.offset)) := by
  obtain ⟨hd, hh, ⟨hm, rfl, _⟩ | ⟨hm, _, rfl, _⟩⟩ := emitPacket_eq_ok h
  · rw [hm, framePacket_length, emitHeader_length hh]
    exact ⟨fun _ => by omega, nofun⟩
  · rw [hm, framePacket_length, emitHeader_length hh, List.length_append, beBytes_length,
      Context.chunk_length]
    exact ⟨nofun, fun _ => by omega⟩

/-- A packet that PACK_NEXT answers of an open stream is its emission, taken with a packet left. -/
theorem emitPacket_of_answers {s t : State} {ctx : Context} {p : Bytes}
    (hs : s.slot? s.issuer = some (.active ctx)) (h : Answers .packNext s t .ok (.packet p)) :
    ctx.exhausted = false ∧ ∃ ctx', emitPacket ctx s.seq = .ok (p, ctx') ∧
      t = (s.advanceSeq.setSlot s.issuer (.active ctx')).respond .ok (.packet p) := by
  obtain ⟨hx, ho⟩ := h
  rcases execPackNext_cases s with ⟨hs', _⟩ | ⟨hs', _⟩ | ⟨hs', _⟩ | ⟨c, _, _, he⟩ | ⟨c, st, _, _, _, he⟩ |
    ⟨c, q, c', hs', hc, hp, he⟩
  · simp [hs] at hs'
  · simp [hs] at hs'
  · simp [hs] at hs'
  · obtain rfl := Host.Outcome.next.inj (hx.symm.trans he)
    simp at ho
  · obtain rfl := Host.Outcome.next.inj (hx.symm.trans he)
    simp at ho
  · obtain rfl := Host.Outcome.next.inj (hx.symm.trans he)
    obtain rfl : ctx = c := by simpa [hs] using hs'
    obtain rfl : q = p := by simpa using ho
    exact ⟨hc, c', hp, rfl⟩

/-! ### Opening a stream (R170) -/

theorem execPackStart_of_lt {s : State} (ov : PartialRecord) (body : Bytes) (now : Nat)
    (hc : s.issuer < s.nClients) :
    execPackStart ov body now s =
      .next ((s.setSlot s.issuer (.active (openContext s.params ov body now))).respond .ok .none) := by
  obtain ⟨v, hv⟩ := Option.isSome_iff_exists.mp ((State.slot?_isSome_iff s s.issuer).mpr hc)
  simp [execPackStart, hv]

/-! ### A whole stream -/

/-- The stream whose context is `ctx` gives the packets `ps`, and then no more, when its first emission
takes the counter value `seq` and each later one the next value. -/
inductive Emits : Context → BitVec 24 → List Bytes → Prop
  | exhausted {ctx : Context} {seq : BitVec 24} (hx : ctx.exhausted = true) : Emits ctx seq []
  | packet {ctx ctx' : Context} {seq : BitVec 24} {p : Bytes} {ps : List Bytes}
      (hx : ctx.exhausted = false) (he : emitPacket ctx seq = .ok (p, ctx'))
      (rest : Emits ctx' (seq + 1) ps) : Emits ctx seq (p :: ps)

/-- The state after the issuer has pulled the packets `ps` and END. -/
def State.afterPulls (s : State) (ps : List Bytes) : State :=
  { s with
    seq := s.seq + BitVec.ofNat 24 ps.length
    slots := s.slots.set s.issuer .done
    outbox := s.outbox ++ ps.map (fun p => ⟨s.issuer, .ok, .packet p⟩)
      ++ [⟨s.issuer, .endOfStream, .none⟩] }

theorem add_ofNat_succ (seq : BitVec 24) (k : Nat) :
    seq + BitVec.ofNat 24 (k + 1) = seq + BitVec.ofNat 24 k + 1 := by
  rw [BitVec.ofNat_add, ← BitVec.add_assoc]
  rfl

/-- After one pulled packet, pulling the others ends where pulling all does. -/
theorem State.afterPulls_cons (s : State) (v : Slot) (p : Bytes) (ps : List Bytes) :
    ((s.advanceSeq.setSlot s.issuer v).respond .ok (.packet p)).afterPulls ps
      = s.afterPulls (p :: ps) := by
  have hq : s.seq + 1 + BitVec.ofNat 24 ps.length = s.seq + BitVec.ofNat 24 (p :: ps).length := by
    rw [List.length_cons, add_ofNat_succ, add_right_comm]
  simp only [State.afterPulls, State.respond, State.setSlot, State.advanceSeq, hq, List.set_set,
    List.map_cons, List.append_assoc, List.singleton_append]

/-- PACK_ALL's pulls follow the stream's emissions to their END, one pull for each packet and one for
END (R76). -/
theorem pullAll_of_emits {ctx : Context} {seq : BitVec 24} {ps : List Bytes} (h : Emits ctx seq ps)
    {s : State} (hs : s.slot? s.issuer = some (.active ctx)) (hq : s.seq = seq) (got : List Bytes) :
    pullAll (ps.length + 1) got s = some ⟨got ++ ps, .endOfStream, s.afterPulls ps⟩ := by
  induction h generalizing s got with
  | exhausted hx =>
    simp [pullAll, execPackNext, hs, hx, State.afterPulls, State.respond, State.setSlot]
  | @packet ctx ctx' seq p ps hx he _ ih =>
    subst hq
    have hn : execPackNext s =
        .next ((s.advanceSeq.setSlot s.issuer (.active ctx')).respond .ok (.packet p)) := by
      simp [execPackNext, hs, hx, he]
    have hs' : ((s.advanceSeq.setSlot s.issuer (.active ctx')).respond .ok (.packet p)).slot? s.issuer
        = some (.active ctx') := by
      simp [State.slot?_setSlot_self, hs]
    rw [List.length_cons, pullAll, hn]
    simp only [State.respond_outbox, List.getLast?_concat]
    rw [ih hs' rfl, State.afterPulls_cons, List.append_assoc, List.singleton_append]

/-! ### The stream PACK_START opens -/

/-- A record that fits goes on fitting with a counter value in `snd_seq` (R164). -/
theorem FullRecord.fits_stamped {R : FullRecord} (hR : R.fits) (seq : BitVec 24) :
    { R with sndSeq := seq.toNat : FullRecord }.fits := by
  intro x
  by_cases hx : x = .sndSeq
  · subst hx
    have hlt : seq.toNat < 2 ^ 24 := seq.isLt
    simpa [FullRecord.fitsField, FullRecord.plain, HeaderField.width, HeaderField.bytes] using hlt
  · cases x with
    | sndSeq => exact absurd rfl hx
    | _ => exact hR _

/-- A stream's header is that of its record with the counter value in `snd_seq`, whatever value
completes the record (R176). -/
theorem emitHeader_of_fits {ctx : Context} {R : FullRecord} (seq : BitVec 24) {n : Nat}
    (h : { ctx.hdr with sndSeq := some n } = R.toPartial) (hR : R.fits) :
    emitHeader ctx seq = .ok (encodeHeader { R with sndSeq := seq.toNat }) := by
  refine (hdrEncode_eq_ok_iff _ _).mpr ⟨_, ?_, FullRecord.fits_stamped hR seq, rfl⟩
  calc ctx.hdr.setSndSeq seq
      = { { ctx.hdr with sndSeq := some n } with sndSeq := some seq.toNat } := rfl
    _ = { R.toPartial with sndSeq := some seq.toNat } := by rw [h]
    _ = _ := rfl

/-- The opened stream before packet `k`: in SINGLE mode the offset stays, in FRAG mode each packet moves
it by one chunk (R24, R175). -/
def streamAt (p : Params) (ov : PartialRecord) (body : Bytes) (now k : Nat) : Context :=
  { openContext p ov body now with
    index := k
    offset := if body.length < 1024 then 0 else 1024 * k }

theorem streamAt_zero (p : Params) (ov : PartialRecord) (body : Bytes) (now : Nat) :
    streamAt p ov body now 0 = openContext p ov body now := by
  simp [streamAt, openContext]

/-- The record of an opened stream is the defaults under the overrides (R172, R173). -/
theorem streamAt_hdr (p : Params) (ov : PartialRecord) (body : Bytes) (now k : Nat) :
    (streamAt p ov body now k).hdr = streamRecord p ov body now := by
  simp [streamAt, openContext, PartialRecord.override, defaults, streamRecord]

/-- The opened stream is exhausted after its last packet, not before (R178, R180). -/
theorem streamAt_exhausted_iff (p : Params) (ov : PartialRecord) (body : Bytes) (now : Nat) {k : Nat}
    (hk : k ≤ packetCount body.length) :
    (streamAt p ov body now k).exhausted = true ↔ k = packetCount body.length := by
  by_cases hb : body.length < 1024
  · simp [streamAt, Context.exhausted, openContext, modeOf, packetCount, hb]
  · simp only [packetCount, hb, if_false] at hk
    simp [streamAt, Context.exhausted, openContext, modeOf, packetCount, hb]
    omega

/-- Packet `k` of the opened stream, and the stream before the next one (R175 to R177, R180). -/
theorem emitPacket_streamAt {p : Params} {ov : PartialRecord} {body : Bytes} {now k : Nat}
    {R : FullRecord} (seq : BitVec 24)
    (h : { streamRecord p ov body now with sndSeq := some 0 } = R.toPartial) (hR : R.fits)
    (hb : body.length ≤ 2 ^ 42) (hk : k < packetCount body.length) :
    emitPacket (streamAt p ov body now k) (seq + BitVec.ofNat 24 k) =
      .ok (expectedPacket R seq body k, streamAt p ov body now (k + 1)) := by
  rw [← streamAt_hdr p ov body now k] at h
  have hh := emitHeader_of_fits (seq + BitVec.ofNat 24 k) h hR
  by_cases hl : body.length < 1024
  · simp only [packetCount, hl, if_true] at hk
    obtain rfl : k = 0 := by omega
    have hm : (streamAt p ov body now 0).mode = .single := by simp [streamAt, openContext, modeOf, hl]
    rw [emitPacket_of_single hm hh]
    simp [expectedPacket, packetBody, streamAt, openContext, framePacket, hl]
  · simp only [packetCount, hl, if_false] at hk
    have hm : (streamAt p ov body now k).mode = .frag := by simp [streamAt, openContext, modeOf, hl]
    have hi : (streamAt p ov body now k).index < 2 ^ 32 := by simp only [streamAt]; omega
    rw [emitPacket_of_frag hm hi hh]
    simp [expectedPacket, packetBody, chunkAt, Context.chunk, streamAt, openContext, framePacket, hl,
      Nat.mul_add]

/-- The opened stream gives its packets from `k` on, by induction on how many are left (R180, R184). -/
theorem emits_streamAt {p : Params} {ov : PartialRecord} {body : Bytes} {now : Nat}
    {R : FullRecord} (seq : BitVec 24)
    (h : { streamRecord p ov body now with sndSeq := some 0 } = R.toPartial) (hR : R.fits)
    (hb : body.length ≤ 2 ^ 42) (left k : Nat) (hk : k + left = packetCount body.length) :
    Emits (streamAt p ov body now k) (seq + BitVec.ofNat 24 k)
      ((List.range' k left).map (expectedPacket R seq body)) := by
  induction left generalizing k with
  | zero => exact .exhausted ((streamAt_exhausted_iff p ov body now (Nat.le_of_eq hk)).mpr hk)
  | succ left ih =>
    have hx : (streamAt p ov body now k).exhausted = false := by
      rw [Bool.eq_false_iff, ne_eq, streamAt_exhausted_iff p ov body now (by omega)]
      omega
    refine .packet hx (emitPacket_streamAt seq h hR hb (by omega)) ?_
    rw [← add_ofNat_succ]
    exact ih (k + 1) (by omega)

/-- The opened stream gives the whole message (R180, R184). -/
theorem emits_openContext {p : Params} {ov : PartialRecord} {body : Bytes} {now : Nat} {R : FullRecord}
    (seq : BitVec 24) (h : { streamRecord p ov body now with sndSeq := some 0 } = R.toPartial)
    (hR : R.fits) (hb : body.length ≤ 2 ^ 42) :
    Emits (openContext p ov body now) seq (expectedPackets R seq body) := by
  have e := emits_streamAt seq h hR hb (packetCount body.length) 0 (Nat.zero_add _)
  rwa [streamAt_zero, show seq + BitVec.ofNat 24 0 = seq from BitVec.add_zero _,
    ← List.range_eq_range'] at e

@[simp] theorem expectedPackets_length (R : FullRecord) (seq : BitVec 24) (body : Bytes) :
    (expectedPackets R seq body).length = packetCount body.length := by
  simp [expectedPackets]

/-! ### PACK_ALL (R76) -/

theorem pullBound_eq (body : Bytes) : pullBound body = packetCount body.length + 1 := by
  by_cases hb : body.length < 1024 <;> simp [pullBound, packetCount, hb]

/-- PACK_ALL pulls all that the stream it opens gives, where that is as many packets as R180 counts. -/
theorem packAll_of_emits {ov : PartialRecord} {body : Bytes} {now : Nat} {s : State} {ps : List Bytes}
    (hc : s.issuer < s.nClients) (hem : Emits (openContext s.params ov body now) s.seq ps)
    (hn : ps.length = packetCount body.length) :
    packAll ov body now s = some ⟨ps, .endOfStream,
      ((s.setSlot s.issuer (.active (openContext s.params ov body now))).respond .ok .none).afterPulls
        ps⟩ := by
  have hs := State.slot?_setSlot_same s s.issuer (.active (openContext s.params ov body now)) hc
  rw [packAll, execPackStart_of_lt ov body now hc, pullBound_eq, ← hn]
  exact pullAll_of_emits hem (s := (s.setSlot s.issuer _).respond .ok .none) hs rfl []

/-! ### The obligations -/

/-- Settles O48, from the length of an emission and the bounds of a legal context. -/
theorem packetLengths : Obligations.PacketLengths := by
  intro s t ctx p hs hw h
  obtain ⟨hx, ctx', he, _⟩ := emitPacket_of_answers hs h
  obtain ⟨hsingle, hfrag⟩ := emitPacket_length he
  refine ⟨fun hm => ?_, fun hm => ?_⟩
  · obtain ⟨hb, _, _⟩ := (Context.wf_iff_of_single hm).mp hw
    have hl := hsingle hm
    omega
  · have ho := (Context.exhausted_eq_false_iff_of_frag hm).mp hx
    have hl := hfrag hm
    omega

/-- Settles O50: PACK_START opens the stream, whose emissions are the message's packets, and PACK_ALL
follows them to END. -/
theorem packAllEmitsTheWholeMessage : Obligations.PackAllEmitsTheWholeMessage := by
  intro ov body now s R hc h hR hb
  have hall := packAll_of_emits hc (emits_openContext s.seq h hR hb) (expectedPackets_length ..)
  exact ⟨_, hall, rfl, rfl, by simp [State.afterPulls, State.respond, State.setSlot]⟩

end Sys2Proof.Machine
end

section
/-! PROOFS. The CRC register keeps every difference: a step of it is injective, so no change of one byte
is lost (40_checksum.md R104). -/

namespace Sys2Proof

/-! ### The register step is injective -/

/-- Where the polynomial has its top bit, the top bit after a step is the bit that was shifted out. -/
theorem msb_crcBit {w : Nat} {poly : BitVec w} (hp : poly.msb = true) (crc : BitVec w) :
    (crcBit poly crc).msb = crc.getLsbD 0 := by
  by_cases hb : crc.getLsbD 0 = true
  · simp [crcBit, hb, hp, BitVec.msb_ushiftRight]
  · simp [crcBit, hb, BitVec.msb_ushiftRight]

/-- So a step can be undone: the top bit says whether the polynomial was added, the rest was shifted. -/
theorem crcBit_injective {w : Nat} {poly : BitVec w} (hp : poly.msb = true) :
    Function.Injective (crcBit poly) := by
  intro a b h
  have hlow : a.getLsbD 0 = b.getLsbD 0 := by rw [← msb_crcBit hp a, h, msb_crcBit hp b]
  have hshift : a >>> 1 = b >>> 1 := by
    unfold crcBit at h
    rw [hlow] at h
    split at h
    · exact (BitVec.xor_left_inj poly).mp h
    · exact h
  refine BitVec.eq_of_getLsbD_eq fun i _ => ?_
  cases i with
  | zero => exact hlow
  | succ i =>
    have hi := congrArg (fun x => x.getLsbD i) hshift
    simpa [Nat.add_comm] using hi

theorem crcEightBits_injective {w : Nat} {poly : BitVec w} (hp : poly.msb = true) :
    Function.Injective (crcEightBits poly) :=
  (crcBit_injective hp).iterate 8

/-- Different registers stay different over a byte. -/
theorem crcByte_injective_register {w : Nat} {poly : BitVec w} (hp : poly.msb = true) (b : Byte) :
    Function.Injective fun crc => crcByte poly crc b := fun _ _ h =>
  (BitVec.xor_left_inj _).mp (crcEightBits_injective hp h)

/-- Different bytes take a register of at least a byte's width to different registers. -/
theorem crcByte_injective_byte {w : Nat} {poly : BitVec w} (hp : poly.msb = true) (hw : 8 ≤ w)
    (crc : BitVec w) : Function.Injective (crcByte poly crc) := by
  intro a b h
  have hx : a.setWidth w = b.setWidth w :=
    (BitVec.xor_right_inj crc).mp (crcEightBits_injective hp h)
  simpa [BitVec.setWidth_setWidth_of_le, hw] using congrArg (BitVec.setWidth 8) hx

/-- Different registers stay different over a byte sequence. -/
theorem crcRun_injective {w : Nat} {poly : BitVec w} (hp : poly.msb = true) (d : Bytes) :
    Function.Injective fun crc => crcRun poly crc d := by
  induction d with
  | nil => exact fun _ _ h => h
  | cons b d ih => exact ih.comp (crcByte_injective_register hp b)

/-! ### Changes of one byte and of one bit -/

/-- A run over data with one byte replaced ends in the same register only where the byte is the same:
the bytes before it do not matter, and those after it keep the difference. -/
theorem crcRun_set_eq_iff {w : Nat} {poly : BitVec w} (hp : poly.msb = true) (hw : 8 ≤ w)
    (crc : BitVec w) {d : Bytes} {i : Nat} (hi : i < d.length) (b : Byte) :
    crcRun poly crc (d.set i b) = crcRun poly crc d ↔ b = byteAt d i := by
  induction d generalizing crc i with
  | nil => exact absurd hi (Nat.not_lt_zero i)
  | cons x d ih =>
    cases i with
    | zero =>
      exact (crcRun_injective hp d).eq_iff.trans (crcByte_injective_byte hp hw crc).eq_iff
    | succ i => exact ih (crcByte poly crc x) (Nat.lt_of_succ_lt_succ hi)

theorem xor_twoPow_ne {w k : Nat} (hk : k < w) (x : BitVec w) : x ^^^ BitVec.twoPow w k ≠ x := by
  intro h
  have hbit := congrArg (fun y => y.getLsbD k) h
  simp [hk] at hbit

/-- Changing a single bit of the data changes the register. -/
theorem crcRun_flipBit_ne {w : Nat} {poly : BitVec w} (hp : poly.msb = true) (hw : 8 ≤ w)
    (crc : BitVec w) {d : Bytes} {i k : Nat} (hi : i < d.length) (hk : k < 8) :
    crcRun poly crc (flipBit d i k) ≠ crcRun poly crc d := fun h =>
  xor_twoPow_ne hk _ ((crcRun_set_eq_iff hp hw crc hi _).mp h)

theorem crc16_flipBit_ne {d : Bytes} {i k : Nat} (hi : i < d.length) (hk : k < 8) :
    crc16 (flipBit d i k) ≠ crc16 d :=
  crcRun_flipBit_ne (by decide) (by decide) _ hi hk

theorem crc32_flipBit_ne {d : Bytes} {i k : Nat} (hi : i < d.length) (hk : k < 8) :
    crc32 (flipBit d i k) ≠ crc32 d := fun h =>
  crcRun_flipBit_ne (by decide) (by decide) _ hi hk ((BitVec.xor_left_inj _).mp h)

/-- Settles O24, from the injectivity of the register step. -/
theorem crcsDetectSingleBitChanges : Obligations.CrcsDetectSingleBitChanges :=
  fun _ _ _ hi hk => ⟨crc16_flipBit_ne hi hk, crc32_flipBit_ne hi hk⟩

end Sys2Proof
end

section
/-! PROOFS. The version and flags bytes, decimal text, and the obligations on them (41_header_codec.md
R120 to R125). -/

namespace Sys2Proof

/-! ### Decimal text (R121) -/

theorem digitByte_toNat (n : Nat) : (digitByte n).toNat = 48 + n % 10 := by
  rw [digitByte, BitVec.toNat_ofNat]
  omega

/-- One digit more: what it says is ten times what stood before it, and the digit. -/
theorem decimalValue_append_digit (d : Bytes) (n : Nat) :
    decimalValue (d ++ [digitByte n]) = 10 * decimalValue d + n % 10 := by
  simp [decimalValue, digitByte_toNat]

theorem isDecimal_digit {n : Nat} (hn : n < 10) : isDecimal n [digitByte n] := by
  refine ⟨List.cons_ne_nil _ _, fun b hb => ?_, ?_, fun h => by simpa using h⟩
  · obtain rfl := List.mem_singleton.mp hb
    have := digitByte_toNat n
    omega
  · have := decimalValue_append_digit [] n
    simpa [decimalValue, Nat.mod_eq_of_lt hn] using this

/-- A digit appended makes no leading zero: the digits before it would then be those of 0. -/
theorem isDecimal_append_digit {n : Nat} {d : Bytes} (hn : 10 ≤ n) (h : isDecimal (n / 10) d) :
    isDecimal n (d ++ [digitByte n]) := by
  obtain ⟨hne, hdig, hval, hzero⟩ := h
  refine ⟨by simp, fun b hb => ?_, ?_, fun hh => ?_⟩
  · obtain hb | hb := List.mem_append.mp hb
    · exact hdig b hb
    · obtain rfl := List.mem_singleton.mp hb
      have := digitByte_toNat n
      omega
  · rw [decimalValue_append_digit, hval]
    omega
  · rw [List.head?_append_of_ne_nil _ hne] at hh
    rw [hzero hh] at hval
    have hz : decimalValue [0x30#8] = 0 := rfl
    omega

/-- Fuel above the number is enough for its digits. -/
theorem isDecimal_decDigits {fuel n : Nat} (hf : n < fuel) : isDecimal n (decDigits fuel n) := by
  induction fuel generalizing n with
  | zero => omega
  | succ fuel ih =>
    by_cases hn : n < 10
    · rw [decDigits, if_pos hn]
      exact isDecimal_digit hn
    · rw [decDigits, if_neg hn]
      exact isDecimal_append_digit (by omega) (ih (by omega))

/-- Settles O27, by induction on the fuel of the digit loop. -/
theorem decIsDecimal : Obligations.DecIsDecimal := fun n =>
  isDecimal_decDigits (Nat.lt_succ_self n)

/-! ### The version byte (R120 to R122) -/

/-- A byte that is the one-byte encoding of a number is that number. -/
theorem toNat_of_singleton_eq_beBytes {b : Byte} {v : Nat} (h : [b] = beBytes 1 v) (hv : v < 2 ^ 8) :
    b.toNat = v := by
  have hb := congrArg fromBE h
  rw [fromBE_beBytes_of_lt hv] at hb
  simpa [fromBE] using hb

theorem versionByte_toNat {major : Nat} (minor : Nat) (h : major ≤ 15) :
    (versionByte major minor).toNat = 16 * major + minor % 16 :=
  toNat_of_singleton_eq_beBytes (versionByte_eq { (default : FullRecord) with protVer := ⟨major, minor⟩ })
    (show 16 * major + minor % 16 < 2 ^ 8 by omega)

/-- What a version comes back as (R122). -/
theorem decodeVersion_versionByte {major : Nat} (minor : Nat) (h : major ≤ 15) :
    (decodeVersion (versionByte major minor)).majorRaw = 16 * major ∧
      (decodeVersion (versionByte major minor)).minor = minor % 16 := by
  simp only [decodeVersion, versionMajorRaw_eq, versionMinor_eq, versionByte_toNat minor h]
  omega

/-! ### The flags byte (R123 to R125) -/

theorem flagsByte_toNat_eq_or (a b : Nat) (f : Bool) :
    (flagsByte a b f).toNat = (32 * a ||| 4 * b ||| 2 * bit f) % 256 :=
  toNat_of_singleton_eq_beBytes (flagsByte_eq { (default : FullRecord) with flags := ⟨a, b, f⟩ })
    (Nat.mod_lt _ (by decide))

theorem bit_le_one (f : Bool) : bit f ≤ 1 := by cases f <;> decide

theorem bit_eq_one_iff (f : Bool) : bit f = 1 ↔ f = true := by cases f <;> decide

/-- The flags formula without overlap: what `b` has above three bits spills into `a`. -/
theorem flags_or_eq (a b : Nat) (f : Bool) :
    32 * a ||| 4 * b ||| 2 * bit f = 32 * (a ||| b / 8) + (4 * (b % 8) + 2 * bit f) := by
  have hf := bit_le_one f
  have hmul (m n : Nat) : 32 * (m ||| n) = 32 * m ||| 32 * n := by
    simpa [Nat.shiftLeft_eq, Nat.mul_comm] using Nat.shiftLeft_or_distrib (a := m) (b := n) (i := 5)
  have hlow : 4 * (b % 8) + 2 * bit f < 2 ^ 5 := by omega
  calc 32 * a ||| 4 * b ||| 2 * bit f
      = 32 * a ||| (4 * b + 2 * bit f) := by
        rw [Nat.lor_assoc, Nat.two_pow_add_eq_or_of_lt (i := 2) (by omega)]
    _ = 32 * a ||| (32 * (b / 8) + (4 * (b % 8) + 2 * bit f)) := by congr 1; omega
    _ = 32 * a ||| 32 * (b / 8) ||| (4 * (b % 8) + 2 * bit f) := by
        rw [Nat.two_pow_add_eq_or_of_lt hlow, Nat.lor_assoc]
    _ = 32 * (a ||| b / 8) + (4 * (b % 8) + 2 * bit f) := by
        rw [← hmul, ← Nat.two_pow_add_eq_or_of_lt hlow]

theorem flagsByte_toNat (a b : Nat) (f : Bool) :
    (flagsByte a b f).toNat = 32 * ((a ||| b / 8) % 8) + 4 * (b % 8) + 2 * bit f := by
  have hf := bit_le_one f
  rw [flagsByte_toNat_eq_or, flags_or_eq]
  omega

theorem decodeFlags_f (x : Byte) : (decodeFlags x).f = true ↔ x.toNat / 2 % 2 = 1 := by
  revert x; decide

/-- What flags come back as (R125). -/
theorem decodeFlags_flagsByte (t : FlagTriple) :
    decodeFlags (flagsByte t.a t.b t.f) = t.afterRoundTrip := by
  have hx := flagsByte_toNat t.a t.b t.f
  have hf := bit_le_one t.f
  have ha : (decodeFlags (flagsByte t.a t.b t.f)).a = (t.a ||| t.b / 8) % 8 := by
    rw [decodeFlags_a]; omega
  have hb : (decodeFlags (flagsByte t.a t.b t.f)).b = t.b % 8 := by
    rw [decodeFlags_b]; omega
  have hft : (decodeFlags (flagsByte t.a t.b t.f)).f = t.f := by
    rw [Bool.eq_iff_iff, decodeFlags_f, ← bit_eq_one_iff]; omega
  exact (FlagTriple.mk.injEq ..).mpr ⟨ha, hb, hft⟩

/-- The round trip of flags is exact where both priorities fit three bits (R125). -/
theorem afterRoundTrip_eq_self_iff (t : FlagTriple) : t.afterRoundTrip = t ↔ t.a ≤ 7 ∧ t.b ≤ 7 := by
  rw [FlagTriple.afterRoundTrip, FlagTriple.mk.injEq]
  constructor
  · omega
  · rintro ⟨ha, hb⟩
    rw [Nat.div_eq_of_lt (by omega), Nat.or_zero]
    exact ⟨Nat.mod_eq_of_lt (by omega), Nat.mod_eq_of_lt (by omega), rfl⟩

namespace Machine

/-! ### The responses of the four commands -/

theorem replies_verEnc {major : Nat} (minor : Nat) (s : State) (h : major ≤ 15) :
    Replies (.verEnc major minor) s .ok (.byte (versionByte major minor)) :=
  if_neg (Nat.not_lt_of_le h)

theorem replies_verEnc_error {major : Nat} (minor : Nat) (s : State) (h : 15 < major) :
    Replies (.verEnc major minor) s (.fieldRange 0) .none :=
  if_pos h

theorem replies_verDec (v : Byte) (s : State) :
    Replies (.verDec v) s .ok (.version (decodeVersion v)) := rfl

theorem replies_flgEnc (a b : Nat) (f : Bool) (s : State) :
    Replies (.flgEnc a b f) s .ok (.byte (flagsByte a b f)) := rfl

theorem replies_flgDec (x : Byte) (s : State) :
    Replies (.flgDec x) s .ok (.flags (decodeFlags x)) := rfl

/-! ### The obligations -/

/-- Settles O25, from the version byte as a number. -/
theorem versionEncodes : Obligations.VersionEncodes :=
  ⟨fun major minor => decode_encode (.verEnc major minor),
    fun _ minor s h => ⟨_, replies_verEnc minor s h, versionByte_toNat minor h⟩,
    fun _ minor s h => replies_verEnc_error minor s h⟩

/-- Settles O26, from the two nibbles and their decimal text. -/
theorem versionDecodes : Obligations.VersionDecodes := fun v s =>
  ⟨decodeVersion v, replies_verDec v s, versionMajorRaw_eq v, versionMinor_eq v, _, _, rfl,
    decIsDecimal _, decIsDecimal _⟩

/-- Settles O28, from the decoded version byte. -/
theorem versionRoundTrip : Obligations.VersionRoundTrip := by
  intro major minor s t v hm h
  obtain ⟨_, hv⟩ := replies_unique h (replies_verEnc minor s hm)
  obtain rfl := Result.byte.inj hv
  obtain ⟨hmajor, hminor⟩ := decodeVersion_versionByte minor hm
  refine ⟨_, replies_verDec _ t, hmajor, hminor, ?_⟩
  omega

/-- Settles O29, from the flags byte as a number. -/
theorem flagsEncode : Obligations.FlagsEncode := by
  refine ⟨fun a b f => decode_encode (.flgEnc a b f), fun a b f s => ?_⟩
  have hx := flagsByte_toNat a b f
  refine ⟨_, replies_flgEnc a b f s, flagsByte_toNat_eq_or a b f, by omega, fun hb => ?_⟩
  rwa [Nat.div_eq_of_lt (by omega), Nat.or_zero, Nat.mod_eq_of_lt (by omega : b < 8)] at hx

/-- Settles O30, from the three fields of a flags byte. -/
theorem flagsDecode : Obligations.FlagsDecode :=
  ⟨fun x => decode_encode (.flgDec x), fun x s =>
    ⟨_, replies_flgDec x s, decodeFlags_a x, decodeFlags_b x, decodeFlags_f x⟩⟩

/-- Settles O31, from the decoded flags byte. -/
theorem flagsRoundTrip : Obligations.FlagsRoundTrip := by
  intro a b f s t x h
  obtain ⟨_, hx⟩ := replies_unique h (replies_flgEnc a b f s)
  obtain rfl := Result.byte.inj hx
  have hu := decodeFlags_flagsByte ⟨a, b, f⟩
  exact ⟨_, replies_flgDec _ t, hu, hu ▸ afterRoundTrip_eq_self_iff ⟨a, b, f⟩⟩

end Machine

end Sys2Proof
end

section
/-! PROOFS. The header codec's checks and fields, its round trip, its detection of changed bits, and the
obligations on them (41_header_codec.md R127, R130 to R132). -/

namespace Sys2Proof

open Machine (Status)

/-! ### The lowest field of a kind (R73, R127) -/

theorem HeaderField.all_getElem?_index (x : HeaderField) : HeaderField.all[x.index]? = some x := by
  cases x <;> rfl

theorem HeaderField.index_all_getElem :
    ∀ j : Fin HeaderField.all.length, HeaderField.all[j].index = j := by decide

theorem HeaderField.index_injective : Function.Injective HeaderField.index := by
  intro x y h
  have hx := x.all_getElem?_index
  rw [h, y.all_getElem?_index] at hx
  exact (Option.some.inj hx).symm

/-- A search of the fields in index order ends at the lowest field of the kind. -/
theorem find?_all_eq_some {p : HeaderField → Bool} {x : HeaderField} (hx : p x = true)
    (hlow : ∀ y : HeaderField, y.index < x.index → p y = false) :
    HeaderField.all.find? p = some x := by
  obtain ⟨hi, he⟩ := List.getElem?_eq_some_iff.mp x.all_getElem?_index
  refine List.find?_eq_some_iff_getElem.mpr ⟨hx, x.index, hi, he, fun j hj => ?_⟩
  have hidx : HeaderField.all[j].index = j := HeaderField.index_all_getElem ⟨j, hj.trans hi⟩
  rw [hlow _ (by rwa [hidx]), Bool.not_false]

/-! ### The checks of an encode that fails (R127) -/

/-- One presence check of a record whose lowest missing field is `x`: it fails where it is `x`'s own, and
is passed where it is a lower field's. -/
theorem present_bind_of_lowest_missing {F : PartialRecord} {x y : HeaderField} {α β : Type} {o : Option α}
    {k : α → Except Status β} (hx : F.has x = false)
    (hlow : ∀ z : HeaderField, z.index < x.index → F.has z = true) (ho : F.has y = o.isSome)
    (hy : y.index ≤ x.index) (hk : y.index < x.index → ∀ v, k v = .error (.missingField x.index)) :
    (present y o >>= k) = .error (.missingField x.index) := by
  obtain heq | hlt := Nat.eq_or_lt_of_le hy
  · obtain rfl := HeaderField.index_injective heq
    obtain rfl : o = none := by simpa [hx] using ho
    rfl
  · obtain ⟨v, rfl⟩ := Option.isSome_iff_exists.mp (ho.symm.trans (hlow y hlt))
    exact hk hlt v

/-- The presence checks go through the fields in index order, so the lowest missing one is reported. -/
theorem complete_of_lowest_missing {F : PartialRecord} {x : HeaderField} (hx : F.has x = false)
    (hlow : ∀ y : HeaderField, y.index < x.index → F.has y = true) :
    F.complete = .error (.missingField x.index) := by
  unfold PartialRecord.complete
  refine present_bind_of_lowest_missing hx hlow rfl (Nat.zero_le _) ?_
  iterate 12 refine fun h _ => present_bind_of_lowest_missing hx hlow rfl h ?_
  obtain ⟨hi, _⟩ := List.getElem?_eq_some_iff.mp x.all_getElem?_index
  exact fun h _ => absurd hi (Nat.not_lt_of_le h)

theorem hdrEncode_of_incomplete {F : PartialRecord} {st : Status} (h : F.complete = .error st) :
    hdrEncode F = .error st := by
  simp [hdrEncode, checkRecord, h, bind, Except.bind]

/-- Of a complete record, the lowest field that does not fit is reported. -/
theorem hdrEncode_of_lowest_unfit {R : FullRecord} {x : HeaderField} (hx : ¬ R.fitsField x)
    (hlow : ∀ y : HeaderField, y.index < x.index → R.fitsField y) :
    hdrEncode R.toPartial = .error (.fieldRange x.index) := by
  have hf : HeaderField.all.find? R.outOfRange = some x := by
    refine find?_all_eq_some ?_ fun y hy => (outOfRange_eq_false_iff R y).mpr (hlow y hy)
    rwa [← outOfRange_eq_false_iff, Bool.not_eq_false] at hx
  simp [hdrEncode, checkRecord, hf, bind, Except.bind]

theorem hdrEncode_of_fits {R : FullRecord} (h : R.fits) : hdrEncode R.toPartial = .ok (encodeHeader R) :=
  (hdrEncode_eq_ok_iff _ _).mpr ⟨R, rfl, h, rfl⟩

theorem toPartial_injective : Function.Injective FullRecord.toPartial := fun R R' h =>
  Except.ok.inj ((complete_toPartial R).symm.trans ((congrArg _ h).trans (complete_toPartial R')))

/-! ### The value of HDR_DEC (R130) -/

theorem hdrDecode_of_length_ne {d : Bytes} (h : d.length ≠ 40) :
    hdrDecode d = .error .invalidHeaderLength := if_pos h

theorem hdrDecode_of_crc_ne {d : Bytes} (hl : d.length = 40)
    (h : fromBE (slice d 38 40) ≠ (crc16 (slice d 0 38)).toNat) :
    hdrDecode d = .error .headerIntegrityError :=
  (if_neg (not_not_intro hl)).trans (if_pos h)

theorem hdrDecode_of_crc_eq {d : Bytes} (hl : d.length = 40)
    (h : fromBE (slice d 38 40) = (crc16 (slice d 0 38)).toNat) :
    hdrDecode d = .ok (decodedFields d) :=
  (if_neg (not_not_intro hl)).trans (if_neg (not_not_intro h))

/-- A single byte is its own big-endian number. -/
theorem fromBE_slice_one (d : Bytes) (i : Nat) : fromBE (slice d i (i + 1)) = (byteAt d i).toNat := by
  rw [slice, Nat.add_sub_cancel_left, List.take_one, List.head?_drop, byteAt, List.getD_eq_getElem?_getD]
  cases d[i]? with
  | none => rfl
  | some b => simp [fromBE]

/-- Every plain field is read big-endian from its own bytes (R64, R130). -/
theorem decodedFields_plain (d : Bytes) (x : HeaderField) : (decodedFields d).plain x =
    if x = .protVer ∨ x = .flags then none else some (fromBE (headerBytes d x)) := by
  cases x with
  | msgMjType => exact congrArg some (fromBE_slice_one d 8).symm
  | msgMiType => exact congrArg some (fromBE_slice_one d 9).symm
  | _ => rfl

theorem FullRecord.plain_eq_wire (R : FullRecord) (x : HeaderField) : R.plain x =
    if x = .protVer ∨ x = .flags then none else some (R.wire x) := by
  cases x <;> rfl

/-! ### The round trip (R132) -/

theorem hdrDecode_encodeHeader (R : FullRecord) :
    hdrDecode (encodeHeader R) = .ok (decodedFields (encodeHeader R)) := by
  refine hdrDecode_of_crc_eq (encodeHeader_length R) ?_
  rw [slice_encodeHeader_crc, slice_encodeHeader_span]
  exact fromBE_beBytes_of_lt (BitVec.isLt _)

theorem comesBackAs_decodedFields {R : FullRecord} (h : R.fits) :
    R.comesBackAs (decodedFields (encodeHeader R)) := by
  obtain ⟨hmajor, hminor⟩ := decodeVersion_versionByte R.protVer.minor ((h .protVer).1 rfl)
  refine ⟨funext fun x => ?_, hmajor, hminor, decodeFlags_flagsByte R.flags⟩
  rw [decodedFields_plain, FullRecord.plain_eq_wire, fromBE_headerBytes_encodeHeader (h x)]

/-! ### Changed bits (R131) -/

/-- A changed bit outside a slice does not show in it. -/
theorem slice_flipBit_outside (d : Bytes) {i k a b : Nat} (h : i < a ∨ b ≤ i) :
    slice (flipBit d i k) a b = slice d a b := by
  by_cases ha : i < a
  · rw [slice, flipBit, List.drop_set_of_lt ha, slice]
  · rw [slice, flipBit, List.drop_set, if_neg ha, List.take_set_of_le (by omega), slice]

/-- A changed bit inside a slice is a changed bit of the slice. -/
theorem slice_flipBit_inside (d : Bytes) {i k a b : Nat} (ha : a ≤ i) (hb : i < b) :
    slice (flipBit d i k) a b = flipBit (slice d a b) (i - a) k := by
  have hbyte : byteAt (slice d a b) (i - a) = byteAt d i := by
    simp only [byteAt, slice, List.getD_eq_getElem?_getD, List.getElem?_take, List.getElem?_drop]
    rw [if_pos (by omega), Nat.add_sub_cancel' ha]
  rw [flipBit, flipBit, hbyte, slice, List.drop_set, if_neg (Nat.not_lt_of_le ha), List.take_set, slice]

/-- Byte sequences of one length that denote the same number are the same. -/
theorem fromBE_inj_of_length {a b : Bytes} (hl : a.length = b.length) (h : fromBE a = fromBE b) :
    a = b := by
  induction a generalizing b with
  | nil => exact (List.length_eq_zero_iff.mp hl.symm).symm
  | cons x a ih =>
    cases b with
    | nil => cases hl
    | cons y b =>
      have hl' : a.length = b.length := Nat.succ.inj hl
      have ha := fromBE_lt a
      have hb := fromBE_lt b
      rw [fromBE, fromBE, ← hl'] at h
      rw [← hl'] at hb
      have hx : x.toNat = y.toNat := by
        have hq := congrArg (· / 2 ^ (8 * a.length)) h
        simpa [Nat.mul_comm x.toNat, Nat.mul_comm y.toNat, Nat.mul_add_div, Nat.div_eq_of_lt ha,
          Nat.div_eq_of_lt hb] using hq
      rw [hx] at h
      rw [BitVec.eq_of_toNat_eq hx, ih hl' (Nat.add_left_cancel h)]

theorem byteAt_flipBit {d : Bytes} {i : Nat} (hi : i < d.length) (k : Nat) :
    byteAt (flipBit d i k) i = byteAt d i ^^^ BitVec.twoPow 8 k := by
  simp [flipBit, byteAt, hi]

theorem flipBit_ne {d : Bytes} {i k : Nat} (hi : i < d.length) (hk : k < 8) : flipBit d i k ≠ d := by
  intro h
  have hb := byteAt_flipBit hi k
  rw [h] at hb
  exact xor_twoPow_ne hk _ hb.symm

theorem fromBE_flipBit_ne {d : Bytes} {i k : Nat} (hi : i < d.length) (hk : k < 8) :
    fromBE (flipBit d i k) ≠ fromBE d := fun h =>
  flipBit_ne hi hk (fromBE_inj_of_length (flipBit_length d i k) h)

/-- One changed bit of a valid header moves either the stored CRC-16 or the computed one, not both. -/
theorem hdrDecode_flipBit {d : Bytes} {r : DecodedRecord} {i k : Nat} (h : hdrDecode d = .ok r)
    (hi : i < 40) (hk : k < 8) : hdrDecode (flipBit d i k) = .error .headerIntegrityError := by
  obtain ⟨hl, hc, _⟩ := hdrDecode_eq_ok h
  refine hdrDecode_of_crc_ne (by rw [flipBit_length, hl]) ?_
  by_cases hspan : i < 38
  · have hs : i - 0 < (slice d 0 38).length := by rw [slice_length]; omega
    rw [slice_flipBit_outside d (.inl hspan), slice_flipBit_inside d (Nat.zero_le i) hspan, hc]
    exact fun e => crc16_flipBit_ne hs hk (BitVec.eq_of_toNat_eq e.symm)
  · have hs : i - 38 < (slice d 38 40).length := by rw [slice_length]; omega
    rw [slice_flipBit_outside d (.inr (Nat.le_of_not_lt hspan)),
      slice_flipBit_inside d (Nat.le_of_not_lt hspan) hi, ← hc]
    exact fromBE_flipBit_ne hs hk

namespace Machine

theorem hdrEncode_of_replies {F : PartialRecord} {s : State} {h : Bytes}
    (hr : Replies (.hdrEnc F) s .ok (.header h)) : hdrEncode F = .ok h := by
  cases he : hdrEncode F with
  | ok h' =>
    obtain ⟨_, hh⟩ := replies_unique hr (replies_hdrEnc s he)
    rw [Result.header.inj hh]
  | error st =>
    obtain ⟨_, hh⟩ := replies_unique hr (replies_hdrEnc_error s he)
    cases hh

/-! ### The obligations -/

/-- Settles O33, from the order of the presence checks and of the range checks. -/
theorem headerChecksInOrder : Obligations.HeaderChecksInOrder :=
  ⟨fun _ s _ hx hlow =>
      replies_hdrEnc_error s (hdrEncode_of_incomplete (complete_of_lowest_missing hx hlow)),
    fun _ s _ hx hlow => replies_hdrEnc_error s (hdrEncode_of_lowest_unfit hx hlow),
    fun R s hR => ⟨encodeHeader R, replies_hdrEnc s (hdrEncode_of_fits hR)⟩⟩

/-- Settles O34, from the three values of HDR_DEC and the bytes each field is read from. -/
theorem headerDecodes : Obligations.HeaderDecodes := by
  refine ⟨fun d => decode_encode (.hdrDec d), fun d s =>
    ⟨fun hl => replies_hdrDec_error s (hdrDecode_of_length_ne hl),
      fun hl hc => replies_hdrDec_error s (hdrDecode_of_crc_ne hl hc),
      fun hl hc => ⟨_, replies_hdrDec s (hdrDecode_of_crc_eq hl hc), fun x v hv => ?_, rfl, rfl⟩⟩⟩
  rw [decodedFields_plain] at hv
  split at hv
  · cases hv
  · exact (Option.some.inj hv).symm

/-- Settles O36: the CRC-16 misses no single changed bit, and its stored bytes denote one value only. -/
theorem headerTamperDetected : Obligations.HeaderTamperDetected := fun _ _ t _ _ _ h hi hk =>
  replies_hdrDec_error t (hdrDecode_flipBit (hdrDecode_of_replies h) hi hk)

/-- Settles O37, from the layout of an encoded header and the two packed bytes' round trips. -/
theorem headerRoundTrip : Obligations.HeaderRoundTrip := by
  intro R s t h hr
  obtain ⟨R', hR, hfits, rfl⟩ := (hdrEncode_eq_ok_iff _ _).mp (hdrEncode_of_replies hr)
  obtain rfl := toPartial_injective hR
  exact ⟨_, replies_hdrDec t (hdrDecode_encodeHeader R), comesBackAs_decodedFields hfits⟩

end Machine

end Sys2Proof
end

section
/-! PROOFS. The sequence counter: the value SEQ_NEXT takes, the values taken in a run, the stamp of an
encode, and the obligations on them (42_sequence.md R160 to R164). -/

namespace Sys2Proof

open Machine (Status)

/-! ### Why an encode fails (R127) -/

/-- One presence check of a record: it fails with its own field, which is then missing, or passes on a
later check's failure. -/
theorem missing_of_present_bind_eq_error {F : PartialRecord} {y : HeaderField} {α β : Type}
    {o : Option α} {k : α → Except Status β} {st : Status} (h : (present y o >>= k) = .error st)
    (ho : F.has y = o.isSome)
    (hk : ∀ v, k v = .error st → ∃ x : HeaderField, F.has x = false ∧ st = .missingField x.index) :
    ∃ x : HeaderField, F.has x = false ∧ st = .missingField x.index := by
  cases o with
  | none => cases h; exact ⟨y, ho, rfl⟩
  | some v => exact hk v h

/-- The field that a failing presence check reports is missing. -/
theorem missing_of_complete_eq_error {F : PartialRecord} {st : Status} (h : F.complete = .error st) :
    ∃ x : HeaderField, F.has x = false ∧ st = .missingField x.index := by
  unfold PartialRecord.complete at h
  refine missing_of_present_bind_eq_error h rfl ?_
  iterate 12 refine fun _ h => missing_of_present_bind_eq_error h rfl ?_
  exact nofun

/-- A failing encode reports a field that is missing, or one of a complete record that does not fit. -/
theorem cause_of_hdrEncode_eq_error {F : PartialRecord} {st : Status} (h : hdrEncode F = .error st) :
    (∃ x : HeaderField, F.has x = false ∧ st = .missingField x.index) ∨
    ∃ (R : FullRecord) (x : HeaderField),
      F = R.toPartial ∧ ¬ R.fitsField x ∧ st = .fieldRange x.index := by
  cases hc : F.complete with
  | error e =>
    obtain rfl := Except.error.inj ((hdrEncode_of_incomplete hc).symm.trans h)
    exact .inl (missing_of_complete_eq_error hc)
  | ok R =>
    obtain rfl := complete_eq_ok hc
    cases hf : HeaderField.all.find? R.outOfRange with
    | none => simp [hdrEncode, checkRecord, hf, bind, Except.bind, pure, Except.pure] at h
    | some x =>
      have hx : ¬ R.fitsField x := by
        rw [← outOfRange_eq_false_iff, List.find?_some hf]
        decide
      obtain rfl : .fieldRange x.index = st := by
        simpa [hdrEncode, checkRecord, hf, bind, Except.bind] using h
      exact .inr ⟨R, x, rfl, hx, rfl⟩

/-! ### The stamp (R164) -/

@[simp] theorem has_sndSeq_setSndSeq (F : PartialRecord) (q : BitVec 24) :
    (F.setSndSeq q).has .sndSeq = true := rfl

/-- A complete stamped record fits `snd_seq`, which is as wide as the counter. -/
theorem fitsField_sndSeq_of_stamped {F : PartialRecord} {q : BitVec 24} {R : FullRecord}
    (h : F.setSndSeq q = R.toPartial) : R.fitsField .sndSeq := by
  have hq : q.toNat = R.sndSeq := Option.some.inj (congrArg PartialRecord.sndSeq h)
  refine ⟨nofun, fun v hv => ?_⟩
  obtain rfl : R.sndSeq = v := Option.some.inj hv
  exact hq ▸ q.isLt

/-- Neither kind of failing encode reports `snd_seq`, of index 11, of a stamped record. -/
theorem hdrEncode_stamped_error {F : PartialRecord} {q : BitVec 24} {st : Status}
    (h : hdrEncode (F.setSndSeq q) = .error st) : st ≠ .missingField 11 ∧ st ≠ .fieldRange 11 := by
  obtain ⟨x, hx, rfl⟩ | ⟨R, x, hR, hx, rfl⟩ := cause_of_hdrEncode_eq_error h
  · refine ⟨fun e => ?_, nofun⟩
    obtain rfl : x = .sndSeq := HeaderField.index_injective (Status.missingField.inj e)
    simp at hx
  · refine ⟨nofun, fun e => ?_⟩
    obtain rfl : x = .sndSeq := HeaderField.index_injective (Status.fieldRange.inj e)
    exact hx (fitsField_sndSeq_of_stamped hR)

namespace Machine

/-- The response of an execution that gives nothing but a response is that response. -/
theorem response_of_answers_of_replies {i : Instr} {s t : State} {st st' : Status} {r r' : Result}
    (h : Answers i s t st r) (h' : Replies i s st' r') : st = st' ∧ r = r' := by
  obtain ⟨hx, ho⟩ := h
  obtain rfl := Host.Outcome.next.inj (hx.symm.trans h')
  simpa [eq_comm] using ho

/-- HDR_ENC answers OK or the failure of its encode. -/
theorem ok_or_hdrEncode_eq_error_of_answers {F : PartialRecord} {s t : State} {st : Status} {r : Result}
    (h : Answers (.hdrEnc F) s t st r) : st = .ok ∨ hdrEncode F = .error st := by
  cases he : hdrEncode F with
  | ok b => exact .inl (response_of_answers_of_replies h (replies_hdrEnc s he)).1
  | error e =>
    obtain ⟨rfl, _⟩ := response_of_answers_of_replies h (replies_hdrEnc_error s he)
    exact .inr rfl

/-! ### The values taken in a run (R162) -/

/-- A step that goes on takes the value of `SEQ` or none, and the rest of the run takes the others. -/
theorem takenValues_succ_of_next {k : Nat} {s t : State} (h : step s = .next t) :
    takenValues (k + 1) s = if takesValue s then s.seq :: takenValues k t else takenValues k t := by
  rw [takenValues, h]
  cases takesValue s <;> rfl

/-- With no reset among a run's first events, there is none first, and none among those left to the rest
of the run after a step. -/
theorem no_reset_of_step {k : Nat} {s t : State} (h : step s = .next t)
    (hr : ∀ e ∈ s.inbox.take (k + 1), e ≠ .reset) :
    s.inbox.head? ≠ some .reset ∧ ∀ e ∈ t.inbox.take k, e ≠ .reset := by
  obtain ⟨hb, _⟩ := step_next_frame h
  rw [hb]
  cases hi : s.inbox with
  | nil => simp
  | cons e es =>
    rw [hi, List.take_succ_cons, List.forall_mem_cons] at hr
    obtain ⟨he, hes⟩ := hr
    exact ⟨fun hh => he (Option.some.inj hh), hes⟩

/-- The `j`-th value taken in a run is `j` above the `SEQ` it began with, by induction over its steps:
the step that takes a value moves `SEQ` by one, every other step leaves it (R163). -/
theorem takenValues_getElem?_eq {k : Nat} {s : State} (hr : ∀ e ∈ s.inbox.take k, e ≠ .reset)
    {j : Nat} {v : BitVec 24} (hv : (takenValues k s)[j]? = some v) :
    v = s.seq + BitVec.ofNat 24 j := by
  induction k generalizing s j with
  | zero => simp [takenValues] at hv
  | succ k ih =>
    cases hs : step s with
    | fault f => simp [takenValues, hs] at hv
    | refused q => simp [takenValues, hs] at hv
    | next t =>
      obtain ⟨hhead, hrest⟩ := no_reset_of_step hs hr
      have hseq := onlyTakersMoveTheCounter s t hhead hs
      rw [takenValues_succ_of_next hs] at hv
      cases ht : takesValue s with
      | false =>
        simp only [ht, Bool.false_eq_true, if_false] at hv hseq
        rw [ih hrest hv, hseq]
      | true =>
        simp only [ht, if_true] at hv hseq
        cases j with
        | zero => simpa [eq_comm] using hv
        | succ j =>
          rw [List.getElem?_cons_succ] at hv
          rw [ih hrest hv, hseq, add_ofNat_succ, add_right_comm]

/-- Two different places fewer than `2^24` apart in the count from `seq` hold different values. -/
theorem add_ofNat_ne_of_lt (seq : BitVec 24) {i j : Nat} (hlt : i < j) (hnear : j - i < 2 ^ 24) :
    seq + BitVec.ofNat 24 i ≠ seq + BitVec.ofNat 24 j := by
  intro h
  have hmod := congrArg BitVec.toNat (add_left_cancel h)
  rw [BitVec.toNat_ofNat, BitVec.toNat_ofNat] at hmod
  omega

/-! ### The obligations -/

/-- Settles O41, from the value at each place of a run. -/
theorem takenValuesAreConsecutive : Obligations.TakenValuesAreConsecutive := by
  intro k s hr
  refine ⟨fun j v hv => takenValues_getElem?_eq hr hv, fun i j v w hv hw hlt hnear => ?_⟩
  rw [takenValues_getElem?_eq hr hv, takenValues_getElem?_eq hr hw]
  exact add_ofNat_ne_of_lt s.seq hlt hnear

/-- Settles O42, from what a failing encode reports of a stamped record. -/
theorem stampingNeverFails : Obligations.StampingNeverFails := by
  intro F q s t st r h
  obtain rfl | he := ok_or_hdrEncode_eq_error_of_answers h
  · exact ⟨nofun, nofun⟩
  · exact hdrEncode_stamped_error he

/-- Settles O39: SEQ_NEXT's value is `SEQ` zero-extended, and its increment is that modulo `2^24`. -/
theorem seqNextTakesAndAdvances : Obligations.SeqNextTakesAndAdvances := by
  refine ⟨decode_encode .seqNext, fun s => ?_⟩
  have hlt : s.seq.toNat < 2 ^ 24 := s.seq.isLt
  have hval : (s.seq.setWidth 32).toNat = s.seq.toNat :=
    BitVec.toNat_setWidth_of_le (by decide)
  have hnext : BitVec.ofNat 24 ((s.seq.toNat + 1) % 2 ^ 24) = s.seq + 1 := by
    simp [← BitVec.toNat_inj]
  exact ⟨s.seq.setWidth 32, hval, hval ▸ hlt, by rw [hnext]; rfl⟩

end Machine

end Sys2Proof
end

section
/-! PROOFS. The packet envelope: what UNPACK computes of a packet, of one with a changed bit and of a
framed one, and the obligations on UNPACK (43_packet.md R181 to R183, R185). -/

namespace Sys2Proof

/-! ### The value of UNPACK (R181) -/

/-- The footer of a packet is the CRC-32 of the bytes between header and footer (R68, R181). -/
def FooterMatches (p : Bytes) : Prop :=
  (crc32 (slice p 40 (p.length - 4))).toNat = fromBE (slice p (p.length - 4) p.length)

theorem lastBytes_eq_slice (d : Bytes) (k : Nat) : lastBytes d k = slice d (d.length - k) d.length := by
  rw [lastBytes, slice, List.take_of_length_le (by simp)]

theorem slice_header_length {p : Bytes} (hl : 44 ≤ p.length) : (slice p 0 40).length = 40 := by
  rw [slice_length]
  omega

theorem slice_slice_header (p : Bytes) (i : Nat) {j : Nat} (hj : j ≤ 40) :
    slice (slice p 0 40) i j = slice p i j := by
  simp only [slice, List.drop_zero, List.drop_take, List.take_take]
  congr 1
  omega

namespace Machine

theorem unpackPacket_of_short {p : Bytes} (h : p.length < 44) :
    unpackPacket p = .error .invalidPacketLength := if_pos h

theorem unpackPacket_of_not_footerMatches {p : Bytes} (hl : 44 ≤ p.length) (hf : ¬ FooterMatches p) :
    unpackPacket p = .error .bodyIntegrityError := by
  rw [FooterMatches, ← lastBytes_eq_slice] at hf
  exact (if_neg (Nat.not_lt_of_le hl)).trans (if_pos hf)

/-- Past the length and the footer, UNPACK is HDR_DEC of the header, beside the body as received. -/
theorem unpackPacket_of_footerMatches {p : Bytes} (hl : 44 ≤ p.length) (hf : FooterMatches p) :
    unpackPacket p = (hdrDecode (slice p 0 40)).map fun r => (r, slice p 40 (p.length - 4)) := by
  rw [FooterMatches, ← lastBytes_eq_slice] at hf
  exact (if_neg (Nat.not_lt_of_le hl)).trans (if_neg (not_not_intro hf))

/-- UNPACK accepts a packet exactly where it is long enough, its footer matches and its header decodes. -/
theorem unpackPacket_eq_ok_iff {p b : Bytes} {r : DecodedRecord} :
    unpackPacket p = .ok (r, b) ↔ 44 ≤ p.length ∧ FooterMatches p ∧
      hdrDecode (slice p 0 40) = .ok r ∧ b = slice p 40 (p.length - 4) := by
  by_cases hl : p.length < 44
  · simp [unpackPacket_of_short hl, Nat.not_le_of_lt hl]
  have hl' := Nat.le_of_not_lt hl
  by_cases hf : FooterMatches p
  · rw [unpackPacket_of_footerMatches hl' hf]
    cases hdrDecode (slice p 0 40) <;> simp [Except.map, hl', hf, eq_comm]
  · simp [unpackPacket_of_not_footerMatches hl' hf, hf]

theorem hdrDecode_ne_invalidHeaderLength {d : Bytes} (hl : d.length = 40) :
    hdrDecode d ≠ .error .invalidHeaderLength := by
  by_cases hc : fromBE (slice d 38 40) = (crc16 (slice d 0 38)).toNat
  · rw [hdrDecode_of_crc_eq hl hc]
    exact nofun
  · rw [hdrDecode_of_crc_ne hl hc]
    exact nofun

/-- UNPACK hands HDR_DEC a header of the right length, once the packet is long enough (K17). -/
theorem unpackPacket_ne_invalidHeaderLength (p : Bytes) :
    unpackPacket p ≠ .error .invalidHeaderLength := by
  intro h
  obtain hst | hst | hd := unpackPacket_eq_error h
  · cases hst
  · cases hst
  · by_cases hl : p.length < 44
    · cases (unpackPacket_of_short hl).symm.trans h
    · exact hdrDecode_ne_invalidHeaderLength (slice_header_length (Nat.le_of_not_lt hl)) hd

theorem unpackPacket_of_replies {p b : Bytes} {s : State} {r : DecodedRecord}
    (h : Replies (.unpack p) s .ok (.unpacked r b)) : unpackPacket p = .ok (r, b) := by
  cases hu : unpackPacket p with
  | ok v =>
    obtain ⟨_, hv⟩ := replies_unique h (replies_unpack s hu)
    cases hv
    rfl
  | error st =>
    obtain ⟨_, hv⟩ := replies_unique h (replies_unpack_error s hu)
    cases hv

end Machine

/-! ### Changed bits (R182) -/

/-- Of a packet whose footer matches, the footer goes on matching where the changed bit is in the header,
and does not where it is in the body or in the footer: either the computed CRC-32 moves or the stored one
does, not both. -/
theorem footerMatches_flipBit_iff {p : Bytes} {i k : Nat} (hf : FooterMatches p) (hl : 44 ≤ p.length)
    (hi : i < p.length) (hk : k < 8) : FooterMatches (flipBit p i k) ↔ i < 40 := by
  rw [FooterMatches] at hf
  rw [FooterMatches, flipBit_length]
  by_cases hhead : i < 40
  · rw [slice_flipBit_outside p (.inl hhead), slice_flipBit_outside p (.inl (by omega)), hf]
    exact iff_of_true rfl hhead
  refine iff_of_false ?_ hhead
  by_cases hbody : i < p.length - 4
  · have hs : i - 40 < (slice p 40 (p.length - 4)).length := by rw [slice_length]; omega
    rw [slice_flipBit_outside p (.inl hbody),
      slice_flipBit_inside p (Nat.le_of_not_lt hhead) hbody, ← hf]
    exact fun e => crc32_flipBit_ne hs hk (BitVec.eq_of_toNat_eq e)
  · have hs : i - (p.length - 4) < (slice p (p.length - 4) p.length).length := by
      rw [slice_length]; omega
    rw [slice_flipBit_outside p (.inr (Nat.le_of_not_lt hbody)),
      slice_flipBit_inside p (Nat.le_of_not_lt hbody) hi, hf]
    exact (fromBE_flipBit_ne hs hk).symm

namespace Machine

/-- One changed bit of an accepted packet is reported by the check that covers its byte. -/
theorem unpackPacket_flipBit {p b : Bytes} {r : DecodedRecord} {i k : Nat}
    (h : unpackPacket p = .ok (r, b)) (hi : i < p.length) (hk : k < 8) :
    unpackPacket (flipBit p i k) =
      .error (if i < 40 then .headerIntegrityError else .bodyIntegrityError) := by
  obtain ⟨hl, hf, hd, _⟩ := unpackPacket_eq_ok_iff.mp h
  have hl' : 44 ≤ (flipBit p i k).length := by rwa [flipBit_length]
  have hiff := footerMatches_flipBit_iff hf hl hi hk
  by_cases hhead : i < 40
  · rw [if_pos hhead, unpackPacket_of_footerMatches hl' (hiff.mpr hhead),
      slice_flipBit_inside p (Nat.zero_le i) hhead, Nat.sub_zero, hdrDecode_flipBit hd hhead hk]
    rfl
  · rw [if_neg hhead, unpackPacket_of_not_footerMatches hl' (hhead ∘ hiff.mp)]

/-! ### A framed packet (R68, R183) -/

theorem slice_framePacket_header {h b : Bytes} (hh : h.length = 40) :
    slice (framePacket h b) 0 40 = h := by
  rw [framePacket, List.append_assoc, slice_append_left h _ _ _ (Nat.le_of_eq hh.symm)]
  exact slice_all h _ hh.symm

/-- A part of a packet's body, at its place behind the header. -/
theorem slice_framePacket_of_le {h b : Bytes} (hh : h.length = 40) {i j : Nat} (hj : j ≤ b.length) :
    slice (framePacket h b) (40 + i) (40 + j) = slice b i j := by
  rw [framePacket, List.append_assoc, ← hh, slice_append_right _ _ _ _ (Nat.le_add_right _ _),
    Nat.add_sub_cancel_left, Nat.add_sub_cancel_left, slice_append_left b _ _ _ hj]

theorem slice_framePacket_body {h b : Bytes} (hh : h.length = 40) :
    slice (framePacket h b) 40 ((framePacket h b).length - 4) = b := by
  rw [framePacket_length, Nat.add_sub_cancel, hh]
  exact (slice_framePacket_of_le hh (Nat.le_refl _)).trans (slice_all b _ rfl)

theorem slice_framePacket_footer (h b : Bytes) :
    slice (framePacket h b) ((framePacket h b).length - 4) (framePacket h b).length =
      beBytes 4 (crc32 b).toNat := by
  rw [framePacket_length, Nat.add_sub_cancel, framePacket,
    slice_append_right _ _ _ _ (by simp), List.length_append, Nat.sub_self]
  exact slice_all _ _ (by simp)

theorem footerMatches_framePacket {h : Bytes} (b : Bytes) (hh : h.length = 40) :
    FooterMatches (framePacket h b) := by
  rw [FooterMatches, slice_framePacket_body hh, slice_framePacket_footer]
  exact (fromBE_beBytes_of_lt (BitVec.isLt _)).symm

/-- A header that decodes, framed with any body, is accepted with its own record and that body. -/
theorem unpackPacket_framePacket {h : Bytes} {r : DecodedRecord} (b : Bytes) (hd : hdrDecode h = .ok r) :
    unpackPacket (framePacket h b) = .ok (r, b) := by
  obtain ⟨hh, _, _⟩ := hdrDecode_eq_ok hd
  refine unpackPacket_eq_ok_iff.mpr ⟨?_, footerMatches_framePacket b hh, ?_, ?_⟩
  · rw [framePacket_length]
    omega
  · rwa [slice_framePacket_header hh]
  · exact (slice_framePacket_body hh).symm

/-- What an emission gives is accepted by UNPACK, with the stamped record and the mode's body (R185). -/
theorem unpackPacket_of_emitPacket {ctx ctx' : Context} {seq : BitVec 24} {p : Bytes}
    (h : emitPacket ctx seq = .ok (p, ctx')) :
    ∃ (R : FullRecord) (r : DecodedRecord) (b : Bytes), ctx.hdr.setSndSeq seq = R.toPartial ∧
      unpackPacket p = .ok (r, b) ∧ R.comesBackAs r ∧
      (ctx.mode = .single → b = ctx.body) ∧
      (ctx.mode = .frag → b = beBytes 4 ctx.index ++ ctx.chunk) := by
  obtain ⟨hd, hh, hp⟩ := emitPacket_eq_ok h
  obtain ⟨R, hR, hfits, rfl⟩ := (hdrEncode_eq_ok_iff _ _).mp hh
  have hdec := hdrDecode_encodeHeader R
  obtain ⟨hm, rfl, _⟩ | ⟨hm, _, rfl, _⟩ := hp
  · exact ⟨R, _, _, hR, unpackPacket_framePacket _ hdec, comesBackAs_decodedFields hfits,
      fun _ => rfl, by simp [hm]⟩
  · exact ⟨R, _, _, hR, unpackPacket_framePacket _ hdec, comesBackAs_decodedFields hfits,
      by simp [hm], fun _ => rfl⟩

/-! ### The obligations -/

/-- Settles O54, from the check that covers each byte of an accepted packet. -/
theorem packetTamperDetected : Obligations.PacketTamperDetected := by
  intro p s t r b i k h hi hk
  have hu := unpackPacket_flipBit (unpackPacket_of_replies h) hi hk
  refine ⟨fun hhead => replies_unpack_error t ?_, fun hbody => replies_unpack_error t ?_⟩
  · rw [hu, if_pos hhead]
  · rw [hu, if_neg (Nat.not_lt_of_le hbody)]

/-- Settles O56: PACK_NEXT's packet is an emission, whose header and body come back. -/
theorem emittedPacketsUnpack : Obligations.EmittedPacketsUnpack := by
  intro s t u ctx p hs h
  obtain ⟨_, ctx', he, _⟩ := emitPacket_of_answers hs h
  obtain ⟨R, r, b, hR, hu, hback, hsingle, hfrag⟩ := unpackPacket_of_emitPacket he
  obtain ⟨hl, _, _, rfl⟩ := unpackPacket_eq_ok_iff.mp hu
  refine ⟨R, r, _, hR, replies_unpack u hu, hback, ?_, hsingle, hfrag⟩
  rw [slice_length]
  omega

/-- Settles O52, from the value of UNPACK at each of its checks. -/
theorem unpackChecksAndSplits : Obligations.UnpackChecksAndSplits := by
  refine ⟨fun p => decode_encode (.unpack p), fun p s =>
    ⟨fun hl => replies_unpack_error s (unpackPacket_of_short hl),
      fun hl hf => replies_unpack_error s (unpackPacket_of_not_footerMatches hl hf),
      fun hl hf => ?_⟩⟩
  have hu := unpackPacket_of_footerMatches hl hf
  have hh := slice_header_length hl
  rw [← slice_slice_header p 38 (Nat.le_refl 40), ← slice_slice_header p 0 (by decide : 38 ≤ 40)]
  refine ⟨fun hc => replies_unpack_error s ?_,
    fun hc => ⟨_, replies_hdrDec s (hdrDecode_of_crc_eq hh hc), ?_⟩⟩
  · rw [hu, hdrDecode_of_crc_ne hh hc]
    rfl
  · refine replies_unpack s ?_
    rw [hu, hdrDecode_of_crc_eq hh hc]
    rfl

/-- Settles O53: UNPACK answers OK or the failure it computes. -/
theorem unpackNeverReportsHeaderLength : Obligations.UnpackNeverReportsHeaderLength := by
  intro p s t st r h
  cases hu : unpackPacket p with
  | ok v =>
    obtain ⟨rfl, _⟩ := response_of_answers_of_replies h (replies_unpack s hu)
    exact nofun
  | error e =>
    obtain ⟨rfl, _⟩ := response_of_answers_of_replies h (replies_unpack_error s hu)
    rintro rfl
    exact unpackPacket_ne_invalidHeaderLength p hu

/-- Settles O55, from the value of UNPACK on a framed packet. -/
theorem unpackChecksNothingElse : Obligations.UnpackChecksNothingElse := fun _ body _ t _ h =>
  replies_unpack t (unpackPacket_framePacket body (hdrDecode_of_replies h))

end Machine

end Sys2Proof
end

section
/-! PROOFS. PACK_START and PACK_NEXT on every kind of slot, the writes of a failing command, and the
obligations on them (43_packet.md R170 to R179; 60_exceptions.md R211). -/

namespace Sys2Proof.Machine

/-! ### PACK_NEXT, one equation for each kind of slot (R175 to R179) -/

theorem exec_packNext_of_idle {s : State} (hs : s.slot? s.issuer = some .idle) :
    exec .packNext s = .next (s.raise .noStream) := by
  simp [exec, execPackNext, hs]

theorem exec_packNext_of_done {s : State} (hs : s.slot? s.issuer = some .done) :
    exec .packNext s = .next (s.respond .endOfStream .none) := by
  simp [exec, execPackNext, hs]

section
variable {s : State} {ctx : Context} (hs : s.slot? s.issuer = some (.active ctx))
include hs

theorem exec_packNext_of_exhausted (hx : ctx.exhausted = true) :
    exec .packNext s = .next ((s.setSlot s.issuer .done).respond .endOfStream .none) := by
  simp [exec, execPackNext, hs, hx]

theorem exec_packNext_of_emit_error {st : Status} (hx : ctx.exhausted = false)
    (he : emitPacket ctx s.seq = .error st) :
    exec .packNext s = .next ((s.advanceSeq.setSlot s.issuer .done).raise st) := by
  simp [exec, execPackNext, hs, hx, he]

theorem exec_packNext_of_emit_ok {p : Bytes} {ctx' : Context} (hx : ctx.exhausted = false)
    (he : emitPacket ctx s.seq = .ok (p, ctx')) :
    exec .packNext s =
      .next ((s.advanceSeq.setSlot s.issuer (.active ctx')).respond .ok (.packet p)) := by
  simp [exec, execPackNext, hs, hx, he]

end

/-- No packet is left of a SINGLE stream at index 1, and of a FRAG stream whose cursor is at the end of
the body (R175, R178). -/
theorem Context.exhausted_iff (ctx : Context) : ctx.exhausted = true ↔
    (ctx.mode = .single ∧ ctx.index = 1) ∨ (ctx.mode = .frag ∧ ctx.body.length ≤ ctx.offset) := by
  cases hm : ctx.mode <;> simp [Context.exhausted, hm]

/-! ### Emissions that succeed and that fail (R176, R177) -/

/-- The header of an emission is that of the stamped record, where the record fits. -/
theorem emitHeader_of_stamped {ctx : Context} {seq : BitVec 24} {R : FullRecord}
    (h : ctx.hdr.setSndSeq seq = R.toPartial) (hR : R.fits) :
    emitHeader ctx seq = .ok (encodeHeader R) := by
  rw [emitHeader, h]
  exact hdrEncode_of_fits hR

theorem emitPacket_of_emitHeader_error {ctx : Context} {seq : BitVec 24} {st : Status}
    (hh : emitHeader ctx seq = .error st) : emitPacket ctx seq = .error st := by
  simp [emitPacket, hh, bind, Except.bind]

theorem emitPacket_of_index_out_of_range {ctx : Context} {seq : BitVec 24} {h : Bytes}
    (hm : ctx.mode = .frag) (hi : 2 ^ 32 ≤ ctx.index) (hh : emitHeader ctx seq = .ok h) :
    emitPacket ctx seq = .error (.fieldRange 13) := by
  have hb : fragBody ctx = .error (.fieldRange 13) := if_pos hi
  simp [emitPacket, hh, Context.packet, hm, hb, bind, Except.bind]

theorem hdrEncode_error_of_replies {F : PartialRecord} {s : State} {st : Status}
    (hr : Replies (.hdrEnc F) s st .none) : hdrEncode F = .error st := by
  cases he : hdrEncode F with
  | ok h =>
    obtain ⟨_, hv⟩ := replies_unique hr (replies_hdrEnc s he)
    cases hv
  | error e =>
    obtain ⟨rfl, _⟩ := replies_unique hr (replies_hdrEnc_error s he)
    rfl

/-! ### The context PACK_START opens (R172 to R174) -/

theorem openContext_eq (p : Params) (ov : PartialRecord) (body : Bytes) (now : Nat) :
    openContext p ov body now =
      { hdr := streamRecord p ov body now, body := body,
        mode := if body.length < 1024 then .single else .frag, index := 0, offset := 0 } := by
  rw [← streamAt_hdr p ov body now 0, streamAt_zero]
  rfl

/-! ### Failures (R211) -/

/-- Two outboxes that each add one response of one client to the same responses add the same one. -/
theorem response_eq_of_outbox_eq {l : List Response} {c : Nat} {st st' : Status} {r r' : Result}
    (h : l ++ [⟨c, st, r⟩] = l ++ [⟨c, st', r'⟩]) : st = st' ∧ r = r' := by
  simpa using h

/-- Where a pure command answers a failure, it gives no result: the failure is all that it computes. -/
theorem result_eq_none_of_pure_failure {i : Instr} {s : State} {st : Status} {r : Result}
    (hi : i.isPure = true) (h : exec i s = .next (s.respond st r)) (hf : st.isFailure = true) :
    r = .none := by
  obtain ⟨x, _, ha⟩ := exec_pure_eq_answer hi
  have ho := congrArg State.outbox (Host.Outcome.next.inj ((ha s).symm.trans h))
  cases x with
  | ok v =>
    obtain ⟨rfl, _⟩ := response_eq_of_outbox_eq ho
    cases hf
  | error e =>
    obtain ⟨_, rfl⟩ := response_eq_of_outbox_eq ho
    rfl

/-! ### The obligations -/

/-- Settles O18, from the ways an instruction completes: a pure failure and NoStream write nothing, and a
failing emission makes the two writes. -/
theorem failingCommandsWriteNothingElse : Obligations.FailingCommandsWriteNothingElse := by
  rintro i s t st r ⟨h, ho⟩ hf
  rcases exec_next_cases h with ⟨hi, st', r', rfl⟩ | ⟨_, rfl⟩ | ⟨ov, body, now, v, _, _, rfl⟩ |
    ⟨rfl, ⟨_, rfl⟩ | ⟨_, rfl⟩ | ⟨ctx, _, _, rfl⟩ | ⟨ctx, e, _, _, he, rfl⟩ |
      ⟨ctx, p, ctx', _, _, _, rfl⟩⟩
  · obtain ⟨rfl, rfl⟩ := response_eq_of_outbox_eq ho
    exact ⟨result_eq_none_of_pure_failure hi h hf, .inl ⟨rfl, rfl⟩⟩
  · obtain ⟨rfl, _⟩ := response_eq_of_outbox_eq ho
    cases hf
  · obtain ⟨rfl, _⟩ := response_eq_of_outbox_eq ho
    cases hf
  · obtain ⟨_, rfl⟩ := response_eq_of_outbox_eq ho
    exact ⟨rfl, .inl ⟨rfl, rfl⟩⟩
  · obtain ⟨rfl, _⟩ := response_eq_of_outbox_eq ho
    cases hf
  · obtain ⟨rfl, _⟩ := response_eq_of_outbox_eq ho
    cases hf
  · obtain ⟨rfl, rfl⟩ := response_eq_of_outbox_eq ho
    refine ⟨rfl, .inr ⟨rfl, ?_, rfl, rfl⟩⟩
    obtain ⟨k, rfl | rfl⟩ := emitPacket_eq_error he
    · exact nofun
    · exact nofun
  · obtain ⟨rfl, _⟩ := response_eq_of_outbox_eq ho
    cases hf

/-- Settles O43, from the context PACK_START opens. -/
theorem packStartOpensAStream : Obligations.PackStartOpensAStream := by
  refine ⟨fun ov body now => decode_encode (.packStart ov body now), fun ov body now s hc => ?_⟩
  rw [← openContext_eq]
  exact execPackStart_of_lt ov body now hc

/-- Settles O44, from PACK_NEXT on each kind of slot with no packet to give. -/
theorem packNextWithoutAPacket : Obligations.PackNextWithoutAPacket := fun _ =>
  ⟨exec_packNext_of_idle, exec_packNext_of_done,
    fun ctx hs hx => exec_packNext_of_exhausted hs (ctx.exhausted_iff.mpr hx)⟩

/-- Settles O45, from the emission of a SINGLE stream. -/
theorem packNextEmitsASinglePacket : Obligations.PackNextEmitsASinglePacket := by
  intro s ctx R hs hm hi h hR
  have hx := (Context.exhausted_eq_false_iff_of_single hm).mpr hi
  exact ⟨_, replies_hdrEnc s (hdrEncode_of_fits hR),
    exec_packNext_of_emit_ok hs hx (emitPacket_of_single hm (emitHeader_of_stamped h hR))⟩

/-- Settles O46, from the emission of a FRAG stream. -/
theorem packNextEmitsAFragment : Obligations.PackNextEmitsAFragment := by
  intro s ctx R hs hm ho hi h hR
  have hx := (Context.exhausted_eq_false_iff_of_frag hm).mpr ho
  exact ⟨_, _, replies_hdrEnc s (hdrEncode_of_fits hR), rfl,
    exec_packNext_of_emit_ok hs hx (emitPacket_of_frag hm hi (emitHeader_of_stamped h hR))⟩

/-- Settles O47, from the two ways an emission fails. -/
theorem failedEmissionClosesTheStream : Obligations.FailedEmissionClosesTheStream := fun _ _ hs hx =>
  ⟨fun _ hr => exec_packNext_of_emit_error hs hx
      (emitPacket_of_emitHeader_error (hdrEncode_error_of_replies hr)),
    fun _ hr hm hi => exec_packNext_of_emit_error hs hx
      (emitPacket_of_index_out_of_range hm hi (hdrEncode_of_replies hr))⟩

end Sys2Proof.Machine
end

section
/-! PROOFS. The packets of a stream that comes to END carry the message, and the obligation on PACK_ALL
that says so (30_encoding.md R68, R69, R76; 43_packet.md R180). -/

namespace Sys2Proof

/-! ### The chunks of a message (R69, R180) -/

theorem chunkAt_eq_take (body : Bytes) (k : Nat) : chunkAt body k = (body.drop (1024 * k)).take 1024 := by
  rw [chunkAt, slice, List.take_eq_take_iff, List.length_drop]
  omega

theorem chunkAt_length (body : Bytes) (k : Nat) :
    (chunkAt body k).length = min 1024 (body.length - 1024 * k) := by
  rw [chunkAt_eq_take, List.length_take, List.length_drop]

/-- The first `n` chunks are the message's first `1024 * n` bytes. -/
theorem flatten_chunks (body : Bytes) (n : Nat) :
    ((List.range n).map (chunkAt body)).flatten = body.take (1024 * n) := by
  induction n with
  | zero => simp
  | succ n ih =>
    rw [List.range_succ, List.map_append, List.flatten_append, ih, List.map_singleton,
      List.flatten_singleton, chunkAt_eq_take, Nat.mul_succ, List.take_add]

namespace Machine

/-! ### What a packet carries (R68) -/

/-- The packet `p` carries part `k` of the message: 40 bytes of header, the packet's body and its CRC-32,
the index of a fragment being one that four bytes hold. -/
def CarriesPart (body : Bytes) (k : Nat) (p : Bytes) : Prop :=
  ∃ h : Bytes, h.length = 40 ∧ p = framePacket h (packetBody body k) ∧ (1024 ≤ body.length → k < 2 ^ 32)

/-- A SINGLE packet carries the message between header and footer. -/
theorem CarriesPart.single {body p : Bytes} {k : Nat} (h : CarriesPart body k p) (hb : body.length < 1024) :
    p.length = 44 + body.length ∧ slice p 40 (p.length - 4) = body := by
  obtain ⟨hd, hh, rfl, _⟩ := h
  rw [packetBody, if_pos hb]
  refine ⟨?_, slice_framePacket_body hh⟩
  rw [framePacket_length]
  omega

/-- A fragment carries its index and its chunk between header and footer. -/
theorem CarriesPart.frag {body p : Bytes} {k : Nat} (h : CarriesPart body k p) (hb : 1024 ≤ body.length) :
    fromBE (slice p 40 44) = k ∧ slice p 44 (p.length - 4) = chunkAt body k ∧
      p.length = 48 + min 1024 (body.length - 1024 * k) := by
  obtain ⟨hd, hh, rfl, hk⟩ := h
  rw [packetBody, if_neg (Nat.not_lt_of_le hb)]
  have hl : (beBytes 4 k ++ chunkAt body k).length = 4 + (chunkAt body k).length := by
    rw [List.length_append, beBytes_length]
  rw [framePacket_length, hh, Nat.add_sub_cancel]
  refine ⟨?_, ?_, by rw [hl, chunkAt_length]; omega⟩
  · rw [slice_framePacket_of_le (i := 0) (j := 4) hh (by omega), slice_append_left _ _ _ _ (by simp),
      slice_all _ _ (by simp)]
    exact fromBE_beBytes_of_lt (hk hb)
  · rw [slice_framePacket_of_le (i := 4) hh (Nat.le_refl _), slice_append_right _ _ _ _ (by simp)]
    exact slice_all _ _ (by simp)

theorem map_chunk_of_carriesPart {body : Bytes} {ps : List Bytes} (hb : 1024 ≤ body.length)
    (hparts : ∀ k p, ps[k]? = some p → CarriesPart body k p) :
    (ps.map fun p => slice p 44 (p.length - 4)) = (List.range ps.length).map (chunkAt body) := by
  refine List.ext_getElem (by simp) fun k hk _ => ?_
  rw [List.length_map] at hk
  obtain ⟨_, hchunk, _⟩ := (hparts k _ (List.getElem?_eq_getElem hk)).frag hb
  simpa using hchunk

/-! ### The parts of an opened stream -/

theorem streamAt_mode_eq_single_iff (pr : Params) (ov : PartialRecord) (body : Bytes) (now k : Nat) :
    (streamAt pr ov body now k).mode = .single ↔ body.length < 1024 := by
  simp [streamAt, openContext, modeOf]

/-- An emission of the opened stream before packet `k` carries part `k`, and the stream goes on to the
next packet (R175 to R177). -/
theorem carriesPart_of_emitPacket {pr : Params} {ov : PartialRecord} {body p : Bytes} {now k : Nat}
    {seq : BitVec 24} {ctx' : Context} (he : emitPacket (streamAt pr ov body now k) seq = .ok (p, ctx'))
    (hk : k < packetCount body.length) :
    CarriesPart body k p ∧ ctx' = streamAt pr ov body now (k + 1) := by
  obtain ⟨hd, hh, ⟨hm, rfl, rfl⟩ | ⟨hm, hi, rfl, rfl⟩⟩ := emitPacket_eq_ok he
  · have hb : body.length < 1024 := (streamAt_mode_eq_single_iff ..).mp hm
    obtain rfl : k = 0 := by simpa [packetCount, hb] using hk
    refine ⟨⟨hd, emitHeader_length hh, ?_, fun h => absurd hb (Nat.not_lt_of_le h)⟩, ?_⟩
    · simp [packetBody, hb, streamAt, openContext]
    · simp [streamAt, openContext, hb]
  · have hb : ¬ body.length < 1024 := fun hb => by
      rw [(streamAt_mode_eq_single_iff ..).mpr hb] at hm
      cases hm
    refine ⟨⟨hd, emitHeader_length hh, ?_, fun _ => hi⟩, ?_⟩
    · simp [packetBody, chunkAt, Context.chunk, Nat.mul_add, hb, streamAt, openContext]
    · simp [streamAt, openContext, Nat.mul_add, hb]

/-- The packets of the opened stream from `k` on carry the parts from `k` on, and are as many as are
left, by induction on the emissions. -/
theorem carriesPart_of_emits {pr : Params} {ov : PartialRecord} {body : Bytes} {now k : Nat}
    {seq : BitVec 24} {ps : List Bytes} (h : Emits (streamAt pr ov body now k) seq ps)
    (hk : k ≤ packetCount body.length) :
    k + ps.length = packetCount body.length ∧
      ∀ j p, ps[j]? = some p → CarriesPart body (k + j) p := by
  generalize hc : streamAt pr ov body now k = ctx at h
  induction h generalizing k with
  | exhausted hx =>
    subst hc
    exact ⟨(streamAt_exhausted_iff pr ov body now hk).mp hx, by simp⟩
  | @packet ctx ctx' seq p ps hx he _ ih =>
    subst hc
    have hlt : k < packetCount body.length := by
      refine lt_of_le_of_ne hk fun hend => ?_
      rw [(streamAt_exhausted_iff pr ov body now hk).mpr hend] at hx
      cases hx
    obtain ⟨hp, rfl⟩ := carriesPart_of_emitPacket he hlt
    obtain ⟨hn, hps⟩ := ih hlt rfl
    refine ⟨by rw [List.length_cons]; omega, fun j q hq => ?_⟩
    cases j with
    | zero =>
      obtain rfl : p = q := by simpa using hq
      exact hp
    | succ j =>
      rw [← Nat.add_assoc, Nat.add_right_comm]
      exact hps j q hq

/-! ### PACK_ALL that comes to END (R76) -/

/-- Pulls that come to END have gone through the whole stream, by induction on their number. -/
theorem emits_of_pullAll {fuel : Nat} {got : List Bytes} {s : State} {ctx : Context} {res : PackAllResult}
    (hs : s.slot? s.issuer = some (.active ctx)) (h : pullAll fuel got s = some res)
    (hend : res.final = .endOfStream) :
    ∃ ps, Emits ctx s.seq ps ∧ res.packets = got ++ ps := by
  induction fuel generalizing got s ctx with
  | zero => cases h
  | succ fuel ih =>
    obtain ⟨hx, rfl⟩ | ⟨st, _, he, rfl⟩ | ⟨p, ctx', hx, he, hrest⟩ := pullAll_cases hs h
    · exact ⟨[], .exhausted hx, by simp⟩
    · obtain rfl : st = .endOfStream := hend
      obtain ⟨k, hst | hst⟩ := emitPacket_eq_error he
      · cases hst
      · cases hst
    · have hs' : ((s.advanceSeq.setSlot s.issuer (.active ctx')).respond .ok (.packet p)).slot? s.issuer
          = some (.active ctx') := by
        simp [State.slot?_setSlot_self, hs]
      obtain ⟨ps, hps, hpk⟩ := ih hs' hrest
      exact ⟨p :: ps, .packet hx he hps, by simp [hpk]⟩

/-- So PACK_ALL that comes to END gives as many packets as the message takes, each carrying its part. -/
theorem packAll_carries_parts {ov : PartialRecord} {body : Bytes} {now : Nat} {s : State}
    {res : PackAllResult} (h : packAll ov body now s = some res) (hend : res.final = .endOfStream) :
    res.packets.length = packetCount body.length ∧
      ∀ k p, res.packets[k]? = some p → CarriesPart body k p := by
  by_cases hc : s.issuer < s.nClients
  · rw [packAll, execPackStart_of_lt ov body now hc, ← streamAt_zero] at h
    obtain ⟨ps, hps, hpk⟩ := emits_of_pullAll (s := (s.setSlot s.issuer _).respond .ok .none)
      (State.slot?_setSlot_same s s.issuer _ hc) h hend
    obtain ⟨hn, hparts⟩ := carriesPart_of_emits hps (Nat.zero_le _)
    rw [hpk, List.nil_append]
    simpa using And.intro hn hparts
  · have hs := (State.slot?_eq_none_iff s s.issuer).mpr (Nat.le_of_not_lt hc)
    simp [packAll, execPackStart, hs] at h

/-! ### The obligation -/

/-- Settles O49: the packets carry the message's parts, and its chunks together are the message. -/
theorem chunksMakeUpTheMessage : Obligations.ChunksMakeUpTheMessage := by
  intro ov body now s res h hend
  obtain ⟨hn, hparts⟩ := packAll_carries_parts h hend
  refine ⟨fun hb => ?_, fun hb => ?_⟩
  · rw [packetCount, if_pos hb] at hn
    obtain ⟨p, hp⟩ := List.length_eq_one_iff.mp hn
    exact ⟨p, hp, (hparts 0 p (by simp [hp])).single hb⟩
  · rw [packetCount, if_neg (Nat.not_lt_of_le hb)] at hn
    refine ⟨hn, fun k p hp => ?_, ?_⟩
    · obtain ⟨hidx, hchunk, hlen⟩ := (hparts k p hp).frag hb
      obtain ⟨hk, _⟩ := List.getElem?_eq_some_iff.mp hp
      exact ⟨hidx, hchunk, hlen, by omega⟩
    · rw [map_chunk_of_carriesPart hb hparts, flatten_chunks, hn]
      exact List.take_of_length_le (by omega)

end Machine

end Sys2Proof
end

section
/-! PROOFS. The step with no event to perform, and the obligation on it (00_scope.md R6; 60_exceptions.md
R221). -/

namespace Sys2Proof.Machine

/-- The empty-inbox branch, beside `step_of_reset` and `step_of_command`. -/
theorem step_of_no_event {s : State} (h : s.inbox = []) : step s = .next s := by
  simp [step, h]

/-- Settles O8, from the step on an empty inbox. -/
theorem idleBlockDoesNothing : Obligations.IdleBlockDoesNothing := fun _ => step_of_no_event

end Sys2Proof.Machine
end

section
/-! PROOFS. The state after reset and the reset event, and the obligations on them
(70_reset_and_hazards.md R240, R241; 10_state.md R24). -/

namespace Sys2Proof.Machine

theorem one_le_nClients : 1 ≤ Config.nClients := Nat.le_add_left 1 _

/-- Where every slot is IDLE, each client there is has an IDLE slot. -/
theorem State.slot?_of_slots_idle {s : State} {n c : Nat} (h : s.slots = List.replicate n .idle)
    (hc : c < n) : s.slot? c = some .idle := by
  rw [State.slot?, h, List.getElem?_replicate_of_lt hc]

/-- Settles O9: reset and the reset event both leave a list of IDLE slots, one for each client. -/
theorem resetClearsTheBlock : Obligations.ResetClearsTheBlock := by
  refine ⟨⟨rfl, State.reset_nClients, one_le_nClients, fun c hc => State.slot?_of_slots_idle rfl hc⟩,
    fun s es hb => ⟨_, step_of_reset hb, rfl, ?_, fun c hc => ?_, rfl, rfl, ?_, rfl⟩⟩
  · exact State.nClients_resetBlock s.popEvent
  · exact State.slot?_of_slots_idle (State.resetBlock_slots s.popEvent) hc
  · rw [State.resetBlock_inbox, State.popEvent_inbox, hb, List.tail_cons]

/-- Settles O12: there is a client, and an IDLE slot is legal. -/
theorem resetIsLegal : Obligations.ResetIsLegal := by
  refine (State.inv_iff _).mpr ⟨State.reset_nClients ▸ one_le_nClients, fun v hv => ?_⟩
  obtain rfl : v = .idle := List.eq_of_mem_replicate hv
  rfl

end Sys2Proof.Machine
end

section
/-! PROOFS. Byte sequences of zeros, and the obligation that they are valid data
(70_reset_and_hazards.md R257; 41_header_codec.md R130; 43_packet.md R181). -/

namespace Sys2Proof

/-! ### Zeros (R42, R100) -/

theorem slice_replicate (n : Nat) (b : Byte) (i j : Nat) :
    slice (List.replicate n b) i j = List.replicate (min (j - i) (n - i)) b := by
  rw [slice, List.drop_replicate, List.take_replicate]

theorem byteAt_zeros (n i : Nat) : byteAt (List.replicate n 0#8) i = 0#8 := by
  by_cases h : i < n
  · simp [byteAt, h]
  · simp [byteAt, Nat.le_of_not_lt h]

theorem fromBE_zeros (n : Nat) : fromBE (List.replicate n 0#8) = 0 := by
  induction n with
  | zero => rfl
  | succ n ih => simp [List.replicate_succ, fromBE, ih]

/-- A zero register stays zero under a zero byte, whatever the polynomial: no bit shifted out is set. -/
theorem crcByte_zero_zero {w : Nat} (poly : BitVec w) : crcByte poly 0#w 0#8 = 0#w := by
  have hbit : crcBit poly 0#w = 0#w := by simp [crcBit]
  simp [crcByte, crcEightBits, hbit]

theorem crcRun_zeros {w : Nat} (poly : BitVec w) (n : Nat) :
    crcRun poly 0#w (List.replicate n 0#8) = 0#w := by
  induction n with
  | zero => rfl
  | succ n ih => rw [List.replicate_succ, crcRun_cons, crcByte_zero_zero, ih]

/-- With initial value 0, the CRC-16 of zeros is 0 (R100). -/
theorem crc16_zeros (n : Nat) : crc16 (List.replicate n 0#8) = 0#16 := crcRun_zeros crc16Poly n

/-! ### The header and the packet of zeros -/

theorem hdrDecode_zeros :
    hdrDecode (List.replicate 40 0#8) = .ok (decodedFields (List.replicate 40 0#8)) := by
  refine hdrDecode_of_crc_eq List.length_replicate ?_
  rw [slice_replicate, slice_replicate, fromBE_zeros, crc16_zeros]
  rfl

theorem decodedFields_zeros_plain {n : Nat} {x : HeaderField} {v : Nat}
    (h : (decodedFields (List.replicate n 0#8)).plain x = some v) : v = 0 := by
  rw [decodedFields_plain, headerBytes, slice_replicate, fromBE_zeros] at h
  split at h
  · cases h
  · exact (Option.some.inj h).symm

namespace Machine

/-- The empty body's CRC-32 is 0, so a footer of zeros matches it. -/
theorem unpackPacket_zeros :
    unpackPacket (List.replicate 44 0#8) = .ok (decodedFields (List.replicate 40 0#8), []) := by
  refine unpackPacket_eq_ok_iff.mpr ⟨by simp, ?_, ?_, ?_⟩
  · rw [FooterMatches, List.length_replicate, slice_replicate, slice_replicate, fromBE_zeros]
    decide
  · rw [slice_replicate]
    exact hdrDecode_zeros
  · rw [List.length_replicate, slice_replicate]
    rfl

/-- Settles O38, from what the header and the packet of zeros decode to. -/
theorem allZeroDataPasses : Obligations.AllZeroDataPasses := by
  refine fun s => ⟨_, replies_hdrDec s hdrDecode_zeros, replies_unpack s unpackPacket_zeros,
    fun x v h => decodedFields_zeros_plain h, ?_, ?_⟩
  · rw [decodedFields, byteAt_zeros]
    decide
  · rw [decodedFields, byteAt_zeros]
    decide

end Machine

end Sys2Proof
end

section
/-! PROOFS. The `snd_seq` values of packets that clients pull in turn, and the obligation on two
interleaved streams (70_reset_and_hazards.md R251; 43_packet.md R175, R176). -/

namespace Sys2Proof

theorem headerBytes_framePacket {h : Bytes} (b : Bytes) (x : HeaderField) (hh : h.length = 40) :
    headerBytes (Machine.framePacket h b) x = headerBytes h x := by
  have hx : x.offset + x.bytes ≤ h.length := by
    rw [hh]
    cases x <;> decide
  rw [headerBytes, Machine.framePacket, List.append_assoc, slice_append_left _ _ _ _ hx, headerBytes]

namespace Machine

/-! ### One pull -/

/-- An emitted packet carries the counter value it was stamped with (R176). -/
theorem sndSeq_of_emitPacket {ctx ctx' : Context} {seq : BitVec 24} {p : Bytes}
    (h : emitPacket ctx seq = .ok (p, ctx')) : fromBE (headerBytes p .sndSeq) = seq.toNat := by
  obtain ⟨hd, hh, hp⟩ := emitPacket_eq_ok h
  obtain ⟨b, rfl⟩ : ∃ b, p = framePacket hd b := by
    obtain ⟨_, hp, _⟩ | ⟨_, _, hp, _⟩ := hp
    · exact ⟨_, hp⟩
    · exact ⟨_, hp⟩
  obtain ⟨R, hR, hfits, rfl⟩ := (hdrEncode_eq_ok_iff _ _).mp hh
  have hseq : seq.toNat = R.sndSeq := Option.some.inj (congrArg PartialRecord.sndSeq hR)
  rw [headerBytes_framePacket b _ (encodeHeader_length R),
    fromBE_headerBytes_encodeHeader (hfits .sndSeq), hseq]
  rfl

/-- Only an ACTIVE slot gives a packet (R175, R178). -/
theorem active_of_answers_packet {s t : State} {p : Bytes} (h : Answers .packNext s t .ok (.packet p)) :
    ∃ ctx, s.slot? s.issuer = some (.active ctx) := by
  obtain ⟨hx, ho⟩ := h
  rcases hs : s.slot? s.issuer with _ | _ | ctx | _
  case none => simp [exec, execPackNext, hs] at hx
  case some.idle =>
    obtain rfl := Host.Outcome.next.inj ((exec_packNext_of_idle hs).symm.trans hx)
    cases (response_eq_of_outbox_eq ho).2
  case some.active => exact ⟨ctx, rfl⟩
  case some.done =>
    obtain rfl := Host.Outcome.next.inj ((exec_packNext_of_done hs).symm.trans hx)
    cases (response_eq_of_outbox_eq ho).2

/-- PACK_NEXT that answers a packet has stamped it with `SEQ` and moved `SEQ` by one (R163, R176). -/
theorem seq_of_answers_packet {s t : State} {p : Bytes} (h : Answers .packNext s t .ok (.packet p)) :
    fromBE (headerBytes p .sndSeq) = s.seq.toNat ∧ t.seq = s.seq + 1 := by
  obtain ⟨ctx, hs⟩ := active_of_answers_packet h
  obtain ⟨_, ctx', he, rfl⟩ := emitPacket_of_answers hs h
  exact ⟨sndSeq_of_emitPacket he, rfl⟩

/-! ### A run's steps and responses -/

/-- A step that goes on, with a command to perform, executes the command's instruction for its client. -/
theorem exec_of_step {s u : State} {r : Request} {es : List Event} {i : Instr}
    (hb : s.inbox = .command r :: es) (hd : decode r.command = .ok i) (h : step s = .next u) :
    exec i (s.accept r.client) = .next u := by
  rw [step_of_command hb] at h
  rcases perform_cases r s with ⟨_, e⟩ | ⟨_, _, e⟩ | ⟨hc, _, _⟩
  · cases h.symm.trans e
  · cases h.symm.trans e
  · rwa [perform_of_decode_ok hc hd] at h

/-- A run that goes on for one step more has gone on from its first step. -/
theorem exists_step_of_run_succ {k : Nat} {s t : State} (h : Host.Core.run core (k + 1) s = .next t) :
    ∃ u, step s = .next u ∧ Host.Core.run core k u = .next t := by
  have e := Host.Core.run.eq_2 core s k
  cases hs : step s with
  | next u => exact ⟨u, rfl, (run_succ_of_next hs).symm.trans h⟩
  | fault f =>
    rw [show core.step s = .fault f from hs] at e
    cases h.symm.trans e
  | refused q =>
    rw [show core.step s = .refused q from hs] at e
    cases h.symm.trans e

theorem outbox_prefix_of_step {s t : State} (h : step s = .next t) : s.outbox <+: t.outbox := by
  rcases step_next_cases h with ⟨_, rfl⟩ | ⟨_, _, rfl⟩ | ⟨_, _, _, _, _, rfl⟩ | ⟨_, _, _, _, _, _, hx⟩
  · exact List.prefix_refl _
  · exact List.prefix_refl _
  · exact List.prefix_append _ _
  · obtain ⟨_, _, _, _, _, rfl⟩ := exec_next_eq_respond hx
    exact List.prefix_append _ _

/-- Responses given stay given: a run only adds to them. -/
theorem outbox_prefix_of_run {k : Nat} {s t : State} (h : Host.Core.run core k s = .next t) :
    s.outbox <+: t.outbox := by
  induction k generalizing s with
  | zero =>
    obtain rfl := Host.Outcome.next.inj ((run_zero s).symm.trans h)
    exact List.prefix_refl _
  | succ k ih =>
    obtain ⟨u, hu, hrest⟩ := exists_step_of_run_succ h
    exact (outbox_prefix_of_step hu).trans (ih hrest)

/-! ### Pulls in turn (R251) -/

/-- A client's PACK_NEXT, for a pair of a client and the packet it gets. -/
def pullEvent (q : Nat × Bytes) : Event := .command ⟨q.1, encode .packNext⟩

/-- The response that gives a client its packet. -/
def packetResponse (q : Nat × Bytes) : Response := ⟨q.1, .ok, .packet q.2⟩

/-- The first of the pulls in a run answers its client the packet that the run's responses begin with. -/
theorem answers_first_pull {q : Nat × Bytes} {es : List Event} {rs : List Response} {k : Nat}
    {s t u : State} (hb : s.inbox = pullEvent q :: es) (hu : step s = .next u)
    (hrun : Host.Core.run core k u = .next t) (ho : t.outbox = s.outbox ++ packetResponse q :: rs) :
    Answers .packNext (s.accept q.1) u .ok (.packet q.2) ∧ u.inbox = es := by
  have hx := exec_of_step hb (decode_encode .packNext) hu
  obtain ⟨⟨st, r, huo⟩, hui, _⟩ := oneResponseToTheIssuer _ _ _ hx
  have hpre := outbox_prefix_of_run hrun
  rw [huo, ho, State.accept_outbox, List.prefix_append_right_inj, List.cons_prefix_cons] at hpre
  obtain ⟨hresp, _⟩ := hpre
  refine ⟨⟨hx, huo.trans ?_⟩, by rw [hui, State.accept_inbox, hb, List.tail_cons]⟩
  rw [hresp]
  rfl

/-- Packets pulled in turn, by whatever clients, carry consecutive values from `SEQ` on, by induction on
the pulls. -/
theorem sndSeq_of_pulls {qs : List (Nat × Bytes)} {s t : State} (hb : s.inbox = qs.map pullEvent)
    (hrun : Host.Core.run core qs.length s = .next t)
    (ho : t.outbox = s.outbox ++ qs.map packetResponse) {k : Nat} {q : Nat × Bytes}
    (hq : qs[k]? = some q) : fromBE (headerBytes q.2 .sndSeq) = (s.seq + BitVec.ofNat 24 k).toNat := by
  induction qs generalizing s k with
  | nil => cases hq
  | cons q' qs ih =>
    obtain ⟨u, hu, hrest⟩ := exists_step_of_run_succ hrun
    obtain ⟨ha, hub⟩ := answers_first_pull hb hu hrest ho
    obtain ⟨hval, hseq⟩ := seq_of_answers_packet ha
    have huo : t.outbox = u.outbox ++ qs.map packetResponse := by
      rw [ho, ha.2, State.accept_outbox, List.append_assoc]
      rfl
    rw [State.accept_seq] at hval hseq
    cases k with
    | zero =>
      obtain rfl : q' = q := Option.some.inj hq
      simpa using hval
    | succ k =>
      rw [ih hub hrest huo hq, hseq, add_ofNat_succ, add_right_comm]

/-- Settles O51, from the values of three packets pulled in turn. -/
theorem interleavedStreamsShareTheCounter : Obligations.InterleavedStreamsShareTheCounter := by
  intro s t c d p1 p2 p3 _ hb hrun ho
  have hval {k : Nat} {q : Nat × Bytes} (hq : [(c, p1), (d, p2), (c, p3)][k]? = some q) :
      fromBE (headerBytes q.2 .sndSeq) = (s.seq.toNat + k) % 2 ^ 24 := by
    rw [sndSeq_of_pulls (qs := [(c, p1), (d, p2), (c, p3)]) hb hrun ho hq, BitVec.toNat_add, BitVec.toNat_ofNat, Nat.add_mod_mod]
  exact ⟨(hval (k := 0) rfl).trans (Nat.mod_eq_of_lt s.seq.isLt), hval (k := 1) rfl, hval (k := 2) rfl⟩

end Machine

end Sys2Proof
end

section
/-! PROOFS. Decoding as the inverse of encoding, the CRC register as a number, and the obligations on
them (30_encoding.md R60 to R63; 40_checksum.md R100, R101). -/

namespace Sys2Proof

/-! ### Decode and encode (R60 to R63) -/

/-- A command is an encoding exactly where both its parts are. -/
theorem eq_encode_iff (c : Command) (i : Instr) :
    c = encode i ↔ c.byte = i.opcode.byte ∧ c.operands = i.operands := by
  cases c
  simp [encode]

/-- A command decodes to an instruction exactly where its byte decodes to the instruction's opcode and
its operands are the instruction's own. -/
theorem decode_eq_ok_iff (c : Command) (i : Instr) :
    decode c = .ok i ↔ decodeByte c.byte = some i.opcode ∧ c.operands = i.operands := by
  cases hd : decodeByte c.byte with
  | none => simp [decode_of_decodeByte_none c.operands hd]
  | some o => rw [decode_of_decodeByte_some c.operands hd, bindOperands_eq_ok_iff, Option.some_inj]

/-- Settles O2, part by part: the byte decodes to the opcode that has it, and the operands are carried. -/
theorem decodeInvertsEncode : Obligations.DecodeInvertsEncode := by
  intro c i
  rw [decode_eq_ok_iff, decodeByte_eq_some_iff, eq_encode_iff]

/-! ### The CRC register as a number (R100, R101) -/

theorem crcEightBits_toNat {w : Nat} (poly crc : BitVec w) :
    (crcEightBits poly crc).toNat = crcNatBits poly.toNat 8 crc.toNat := by
  simp only [crcEightBits, crcBit_toNat, crcNatBits]

/-- A register of at least a byte's width takes in the whole byte. -/
theorem crcByte_toNat {w : Nat} (hw : 8 ≤ w) (poly crc : BitVec w) (b : Byte) :
    (crcByte poly crc b).toNat = crcNatBits poly.toNat 8 (crc.toNat ^^^ b.toNat) := by
  rw [crcByte, crcEightBits_toNat, BitVec.toNat_xor, BitVec.toNat_setWidth_of_le hw]

/-- One byte of the loop. It stands as a lemma because deriving the equation of `crcNat` itself times
out on the eight nested bits. -/
theorem crcNat_cons (poly crc : Nat) (b : Byte) (d : Bytes) :
    crcNat poly crc (b :: d) = crcNat poly (crcNatBits poly 8 (crc ^^^ b.toNat)) d := rfl

theorem crcRun_toNat {w : Nat} (hw : 8 ≤ w) (poly crc : BitVec w) (d : Bytes) :
    (crcRun poly crc d).toNat = crcNat poly.toNat crc.toNat d := by
  induction d generalizing crc with
  | nil => rfl
  | cons b d ih => rw [crcRun_cons, ih, crcByte_toNat hw, crcNat_cons]

theorem crc16_toNat (d : Bytes) : (crc16 d).toNat = crcNat 0xA001 0x0000 d := by
  rw [crc16, crcRun_toNat (by decide)]
  rfl

theorem crc32_toNat (d : Bytes) : (crc32 d).toNat = crcNat 0xEDB88320 0xFFFFFFFF d ^^^ 0xFFFFFFFF := by
  rw [crc32, BitVec.toNat_xor, crcRun_toNat (by decide)]
  rfl

namespace Machine

/-! ### The responses of the checksum unit, from the values they compute -/

theorem replies_crc16 {d : Bytes} {c : BitVec 16} (s : State) (e : crc16 d = c) :
    Replies (.crc16 d) s .ok (.nat16 c) := e ▸ rfl

theorem replies_crc32 {d : Bytes} {c : BitVec 32} (s : State) (e : crc32 d = c) :
    Replies (.crc32 d) s .ok (.nat32 c) := e ▸ rfl

/-- Settles O22: the register runs the loop, and a zero register stays zero over zeros. -/
theorem crc16RunsTheLoop : Obligations.Crc16RunsTheLoop :=
  ⟨fun d s => ⟨crc16 d, replies_crc16 s rfl, crc16_toNat d⟩,
    fun n s => replies_crc16 s (crc16_zeros n),
    fun s => replies_crc16 s (by decide +kernel)⟩

/-- Settles O23: the register runs the loop, and the final XOR is the loop's. The empty sequence leaves
the all-ones register, which the final XOR clears. -/
theorem crc32RunsTheLoop : Obligations.Crc32RunsTheLoop :=
  ⟨fun d s => ⟨crc32 d, replies_crc32 s rfl, crc32_toNat d⟩,
    fun s => replies_crc32 s (BitVec.xor_self : crc32 [] = 0#32),
    fun s => replies_crc32 s (by decide +kernel),
    fun s => replies_crc32 s (by decide +kernel)⟩

end Machine

end Sys2Proof
end
